-- ==== Sys2Proof/Word.lean ====
section
/-! DEFINITION. The word types of the DICTC core.

`XLEN` is 64 (00_scope.md R4): registers, stack elements, the program counter and the decoded immediate are all
`Word`. A decoded instruction word has 68 bits (30_encoding.md R63). The program text is a sequence of Unicode scalar
values (20_memory.md R45), which is what Lean's `Char` is: 0 to 0x10FFFF without the surrogates. -/

namespace Sys2Proof

/-- A 64-bit unsigned value (00_scope.md R5). -/
abbrev Word := BitVec 64

/-- One byte of the output stream (10_state.md R20), and the width of a register id field (30_encoding.md R59). -/
abbrev Byte := BitVec 8

/-- A decoded instruction word: `tag` in bits 67:64, `imm` in bits 63:0 (30_encoding.md R63). -/
abbrev Diw := BitVec 68

/-- A Unicode scalar value, the unit the Decoder compares (20_memory.md R45). -/
abbrev Scalar := Char

/-- A line of the program text, or a field of one: a sequence of scalar values (30_encoding.md R51). -/
abbrev Line := List Scalar

end Sys2Proof
end

