-- ==== Sys2Proof/Config.lean ====
section
/-! DEFINITION. The parameters of the hardware (00_scope.md R4), as data the operations take, and the values this
hardware gives them. `XLEN` and `NREG` are in the types (`Word`, `RegId`); every other row of R4's table is a field. -/

namespace Sys2Proof

/-- `ADD_OVERFLOW`: what Add does when the sum passes 2^64 - 1 (00_scope.md R4, 41_arith.md R85). -/
inductive AddOverflow where
  | wrap
  | fault
deriving DecidableEq, Repr

/-- `MOVE_HIGH_BITS`: what Move does with bits 63:16 of its operand (00_scope.md R4; the alternative `refuse` is that
of 93_implementation_defined.md U8). -/
inductive MoveHighBits where
  | ignore
  | refuse
deriving DecidableEq, Repr

/-- `TEXT_ENCODING`: the encoding the bytes of one Print must be well formed in (00_scope.md R4). The spec names no
encoding but UTF-8. -/
inductive TextEncoding where
  | utf8
deriving DecidableEq, Repr

/-- The parameters of 00_scope.md R4. `none` for a capacity is "unbounded". -/
structure Params where
  symA : Scalar
  symB : Scalar
  symC : Scalar
  symDelim : Scalar
  lineSep : Scalar
  stackCapacity : Option Nat
  progCapacity : Option Nat
  addOverflow : AddOverflow
  moveHighBits : MoveHighBits
  printWritesScratch : Bool
  textEncoding : TextEncoding
deriving DecidableEq, Repr

/-- The values this hardware takes (00_scope.md R4, third column; the symbols are those of 30_encoding.md R50). They
are the spec's choices where its source is silent (UNVERIFIED, unsafe: entries 16 to 21). -/
def Params.dictc : Params where
  symA := Char.ofNat 0x1F415
  symB := Char.ofNat 0x1F436
  symC := Char.ofNat 0x1F415
  symDelim := Char.ofNat 0x1F431
  lineSep := Char.ofNat 0x000A
  stackCapacity := none
  progCapacity := none
  addOverflow := .wrap
  moveHighBits := .ignore
  printWritesScratch := true
  textEncoding := .utf8

end Sys2Proof
end

