-- ==== Sys2Proof/Syntax.lean ====
section
/-! DEFINITION. The instructions: ten kinds, each with one 64-bit operand (10_state.md R18, 30_encoding.md R56), one
constructor per row of opcode_table.json. -/

namespace Sys2Proof

/-- The ten instruction kinds (10_state.md R18), in the order of the source's opcode table. -/
inductive Kind where
  | push
  | pop
  | add
  | mul
  | print
  | input
  | jump
  | move
  | exit
  | invalid
deriving DecidableEq, Repr

/-- A decoded Instruction `(kind, n)` (10_state.md R18). Move keeps its whole operand: which bits of it are register
ids is its meaning's business (30_encoding.md R59). Input, Exit and Invalid keep the operand of their line and never
use it (30_encoding.md R57, R61). -/
inductive Instr where
  | push (n : Word)
  | pop (n : Word)
  | add (n : Word)
  | mul (n : Word)
  | print (n : Word)
  | input (n : Word)
  | jump (n : Word)
  | move (n : Word)
  | exit (n : Word)
  | invalid (n : Word)
deriving DecidableEq, Repr

/-- The kind of an Instruction. -/
def Instr.kind : Instr → Kind
  | .push _ => .push
  | .pop _ => .pop
  | .add _ => .add
  | .mul _ => .mul
  | .print _ => .print
  | .input _ => .input
  | .jump _ => .jump
  | .move _ => .move
  | .exit _ => .exit
  | .invalid _ => .invalid

/-- The operand of an Instruction: the count value of the line it was decoded from (10_state.md R18). -/
def Instr.operand : Instr → Word
  | .push n => n
  | .pop n => n
  | .add n => n
  | .mul n => n
  | .print n => n
  | .input n => n
  | .jump n => n
  | .move n => n
  | .exit n => n
  | .invalid n => n

/-- The Instruction of a kind and an operand. -/
def Instr.ofKind : Kind → Word → Instr
  | .push, n => .push n
  | .pop, n => .pop n
  | .add, n => .add n
  | .mul, n => .mul n
  | .print, n => .print n
  | .input, n => .input n
  | .jump, n => .jump n
  | .move, n => .move n
  | .exit, n => .exit n
  | .invalid, n => .invalid n

end Sys2Proof
end

