-- ==== Sys2Proof/WellFormed.lean ====
section
/-! DEFINITION. The well-formedness checks of the encoding.

An `Instr` carries its operand as a 64-bit value, so every `Instr` is well formed as it stands: what can be ill formed
is a choice of parameters (00_scope.md R4), a line (30_encoding.md R52, R54, R55) and a decoded instruction word
(30_encoding.md R63). -/

namespace Sys2Proof

/-- "`SYM_DELIM` differs from `SYM_A`, `SYM_B`, `SYM_C` and `LINE_SEP`" (00_scope.md R4). -/
def Params.delimIsSentinel (p : Params) : Bool :=
  p.symDelim != p.symA && p.symDelim != p.symB && p.symDelim != p.symC && p.symDelim != p.lineSep

/-- "`SYM_A` differs from `SYM_B`" (00_scope.md R4). -/
def Params.opcodeSymbolsDiffer (p : Params) : Bool :=
  p.symA != p.symB

/-- "none of them is `LINE_SEP`" (00_scope.md R4). -/
def Params.noSymbolIsLineSep (p : Params) : Bool :=
  p.symA != p.lineSep && p.symB != p.lineSep && p.symC != p.lineSep && p.symDelim != p.lineSep

/-- The constraints every choice of the four symbols must meet (00_scope.md R4). `SYM_C` may equal `SYM_A`. -/
def Params.wellFormed (p : Params) : Bool :=
  p.delimIsSentinel && p.opcodeSymbolsDiffer && p.noSymbolIsLineSep

/-- The line holds the delimiter exactly once, so that it splits into exactly two fields (30_encoding.md R52). -/
def lineHasTwoFields (p : Params) (l : Line) : Bool :=
  l.count p.symDelim == 1

/-- What stands after the last delimiter, found from the right. -/
def lineTail (p : Params) (l : Line) : Line :=
  (l.reverse.takeWhile (· != p.symDelim)).reverse

/-- Everything after the delimiter is a repetition of `SYM_C` (30_encoding.md R54). -/
def lineTailIsUnary (p : Params) (l : Line) : Bool :=
  (lineTail p l).all (· == p.symC)

/-- The count fits the 64-bit immediate (30_encoding.md R55). -/
def lineTailFits (p : Params) (l : Line) : Bool :=
  decide ((lineTail p l).length < 2 ^ 64)

/-- A line that is the encoding of an Instruction. The opcode field is free: an unrecognised one is Invalid, not an
ill-formed line (30_encoding.md R57, R62). -/
def lineWellFormed (p : Params) (l : Line) : Bool :=
  lineHasTwoFields p l && lineTailIsUnary p l && lineTailFits p l

/-- A decoded instruction word that some line produces: its tag is 0x0 to 0x9 (30_encoding.md R63). -/
def diwWellFormed (d : Diw) : Bool :=
  decide ((d.extractLsb' 64 4).toNat ≤ 9)

end Sys2Proof
end

