-- ==== Sys2Proof/Decode.lean ====
section
/-! DEFINITION. The two levels of encoding: the decoded instruction word (30_encoding.md R63) and the line of text
(30_encoding.md R50 to R64), each with its decoder and, after it, its encoder; the cut of the text into lines (R51);
the whole-text Decoder (R65); the assembly names (R69). -/

namespace Sys2Proof

/-- The parameters this core runs with: those of 00_scope.md R4. The meanings and the host's moves name this one
constant, so a repair of a parameter is made here. -/
abbrev params : Params := Params.dictc

/-! ### The decoded instruction word -/

/-- The tag of each kind (30_encoding.md R63, the table). -/
def Kind.tag : Kind → BitVec 4
  | .push => 0x0#4
  | .pop => 0x1#4
  | .add => 0x2#4
  | .mul => 0x3#4
  | .print => 0x4#4
  | .input => 0x5#4
  | .jump => 0x6#4
  | .move => 0x7#4
  | .exit => 0x8#4
  | .invalid => 0x9#4

/-- The kind of each tag. "Tags 0xA to 0xF are produced by no line; a store that held one would execute it as Invalid"
(30_encoding.md R63). -/
def Kind.ofTag (t : BitVec 4) : Kind :=
  match t.toNat with
  | 0x0 => .push
  | 0x1 => .pop
  | 0x2 => .add
  | 0x3 => .mul
  | 0x4 => .print
  | 0x5 => .input
  | 0x6 => .jump
  | 0x7 => .move
  | 0x8 => .exit
  | _ => .invalid

/-- `tag`, bits 67:64 of a decoded instruction word. -/
def diwTag (d : Diw) : BitVec 4 :=
  d.extractLsb' 64 4

/-- `imm`, bits 63:0 of a decoded instruction word. -/
def diwImm (d : Diw) : Word :=
  d.extractLsb' 0 64

/-- The Instruction a decoded instruction word holds, total on all 68-bit words (30_encoding.md R63). -/
def decode (d : Diw) : Instr :=
  Instr.ofKind (Kind.ofTag (diwTag d)) (diwImm d)

/-- The decoded instruction word of an Instruction (30_encoding.md R63). -/
def encode (i : Instr) : Diw :=
  i.kind.tag ++ i.operand

/-- The Instruction of a word of opcode_table.json: the table's rows are 68 bits, numbered as the decoded instruction
word is (30_encoding.md R63). Bits at and above `nbits` count as 0; a number that is no 68-bit word is refused
(DESIGN CHOICE, safe: entry 10). -/
def decodeTableWord (nbits w : Nat) : Option Instr :=
  if w % 2 ^ nbits < 2 ^ 68 then some (decode (BitVec.ofNat 68 (w % 2 ^ nbits))) else none

/-! ### The opcode map of the line encoding -/

/-- The two letters an opcode pattern is made of (30_encoding.md R56). -/
inductive Letter where
  | A
  | B
deriving DecidableEq, Repr

/-- The opcode pattern of each kind, in letters (30_encoding.md R56). Invalid has no pattern of its own: it is every
other opcode field (R57), the empty one among them. -/
def Kind.pattern : Kind → Option (List Letter)
  | .push => some [.A]
  | .pop => some [.B]
  | .add => some [.A, .A]
  | .mul => some [.A, .B, .A]
  | .print => some [.B, .B, .B]
  | .input => some [.B, .B, .B, .B]
  | .jump => some [.B, .B, .B, .B, .A]
  | .move => some [.A, .B]
  | .exit => some [.A, .A, .A, .A, .A, .A, .A, .A, .A, .A]
  | .invalid => none

/-- The kinds that have a pattern, in the table's order. -/
def patternKinds : List Kind :=
  [.push, .pop, .add, .mul, .print, .input, .jump, .move, .exit]

/-- The codepoint of a letter (30_encoding.md R50). -/
def Letter.scalar (p : Params) : Letter → Scalar
  | .A => p.symA
  | .B => p.symB

/-- The opcode field a kind is written with: its pattern in symbols. For Invalid the empty field, the one the worked
encodings of 30_encoding.md R68 use (DESIGN CHOICE, safe: entry 14). -/
def Kind.field (p : Params) (k : Kind) : Line :=
  (k.pattern.getD []).map (Letter.scalar p)

/-- The kind of an opcode field: exact match of the whole field against the nine patterns, and Invalid for anything
else (30_encoding.md R56, R57). It cannot fail. -/
def kindOfField (p : Params) (field : Line) : Kind :=
  (patternKinds.find? (fun k => k.field p == field)).getD .invalid

/-! ### The Decoder -/

/-- Why a line is not decoded. The first two are the decode-time faults of 60_exceptions.md R141 with what they carry
(R142); the third is the unreachable case of 30_encoding.md R55, which the spec refuses. -/
inductive DecodeError where
  | invalidLine (line : Line)
  | invalidImm (field : Line)
  | operandTooLong
deriving DecidableEq, Repr

/-- "number of positions of L holding SYM_DELIM" is one (30_encoding.md R64, first check). -/
def lineSplits (p : Params) (l : Line) : Bool :=
  l.count p.symDelim == 1

/-- `opf`, the scalar values before the delimiter (30_encoding.md R53, R64). -/
def opcodeField (p : Params) (l : Line) : Line :=
  l.takeWhile (· != p.symDelim)

/-- `imf`, the scalar values after the delimiter (30_encoding.md R53, R64). -/
def operandField (p : Params) (l : Line) : Line :=
  (l.dropWhile (· != p.symDelim)).tail

/-- No element of the operand field differs from `SYM_C` (30_encoding.md R54; R64, second check). -/
def operandIsUnary (p : Params) (field : Line) : Bool :=
  field.all (· == p.symC)

/-- The count is at most 2^64 - 1 (30_encoding.md R55). -/
def operandFits (field : Line) : Bool :=
  decide (field.length < 2 ^ 64)

/-- `DecodeLine(L)` (30_encoding.md R64), its two checks in the order shown there (UNVERIFIED, unsafe for the fault
reported only: entry 15). -/
def decodeLine (p : Params) (l : Line) : Except DecodeError Instr :=
  if lineSplits p l then
    if operandIsUnary p (operandField p l) then
      if operandFits (operandField p l) then
        .ok (Instr.ofKind (kindOfField p (opcodeField p l)) (BitVec.ofNat 64 (operandField p l).length))
      else .error .operandTooLong
    else .error (.invalidImm (operandField p l))
  else .error (.invalidLine l)

/-- The text cut into lines at every `LINE_SEP`: k separators give k + 1 lines (30_encoding.md R51). -/
def splitLines (p : Params) : List Scalar → List Line
  | [] => [[]]
  | c :: cs =>
    if c = p.lineSep then [] :: splitLines p cs
    else
      match splitLines p cs with
      | [] => [[c]]
      | l :: ls => (c :: l) :: ls

/-- Lines decoded in address order; the first one that fails decides the error (30_encoding.md R66, R67). -/
def decodeLines (p : Params) : List Line → Except DecodeError (List Instr)
  | [] => .ok []
  | l :: ls =>
    match decodeLine p l with
    | .error e => .error e
    | .ok i =>
      match decodeLines p ls with
      | .error e => .error e
      | .ok is => .ok (i :: is)

/-- The Decoder: `parse(program_text) -> sequence of Instruction` (30_encoding.md R65). -/
def decodeText (p : Params) (text : List Scalar) : Except DecodeError (List Instr) :=
  decodeLines p (splitLines p text)

/-! ### The line encoder -/

/-- The line of an Instruction: the kind's pattern, the delimiter, then n times `SYM_C` (30_encoding.md R68). An Invalid
instruction is the decoding of infinitely many lines; this is the one with the empty opcode field. -/
def encodeLine (p : Params) (i : Instr) : Line :=
  i.kind.field p ++ p.symDelim :: List.replicate i.operand.toNat p.symC

/-- Lines joined with one `LINE_SEP` between them (20_memory.md R45). -/
def joinLines (p : Params) : List Line → List Scalar
  | [] => []
  | [l] => l
  | l :: m :: ls => l ++ p.lineSep :: joinLines p (m :: ls)

/-- The program text of a sequence of Instructions. -/
def encodeText (p : Params) (is : List Instr) : List Scalar :=
  joinLines p (is.map (encodeLine p))

/-! ### Assembly names -/

/-- The lower-case mnemonics of 30_encoding.md R69. -/
def Kind.asmName : Kind → String
  | .push => "push"
  | .pop => "pop"
  | .add => "add"
  | .mul => "mul"
  | .print => "print"
  | .input => "input"
  | .jump => "jump"
  | .move => "move"
  | .exit => "exit"
  | .invalid => "invalid"

/-- An Instruction in the notation of 30_encoding.md R69; `field` is the unrecognised opcode field an Invalid is shown
with (`invalid "p" k`), which the Instruction does not keep. The notation is for readers; the hardware does not accept
it. -/
def Instr.asm (field : String) (i : Instr) : String :=
  match i.kind with
  | .invalid => "invalid \"" ++ field ++ "\" " ++ toString i.operand.toNat
  | k => k.asmName ++ " " ++ toString i.operand.toNat

end Sys2Proof
end

