-- ==== Sys2Proof/Machine/State.lean ====
section
/-! DEFINITION. The state of the core (10_state.md), all of it plain data, the reset state, and the two ways the model's
step can end other than in a next state.

A run-time or decode-time fault of the hardware (60_exceptions.md R141) is NOT an outcome of that second sort: the spec
says what state it leaves (R147, R148), so it is a next state whose `status` is FAULTED or LOAD_FAILED (DESIGN CHOICE,
safe: entry 4). -/

namespace Sys2Proof.Machine

/-- The six register ids (10_state.md R10): `r0` is the scratch register, `r1` to `r5` the general registers. -/
inductive RegId where
  | r0
  | r1
  | r2
  | r3
  | r4
  | r5
deriving DecidableEq, Repr

/-- The register file: `x[0]` to `x[5]`, none hard-wired, none banked (10_state.md R10). -/
structure Regs where
  x0 : Word
  x1 : Word
  x2 : Word
  x3 : Word
  x4 : Word
  x5 : Word
deriving DecidableEq, Repr

/-- `status` (10_state.md R21). -/
inductive Status where
  | idle
  | loaded
  | running
  | exited
  | faulted
  | loadFailed
deriving DecidableEq, Repr

/-- `fault_kind` (60_exceptions.md R141). `noFault` is the spec's `None`. `invalidOpc` is raised by nothing (R141).
`stackOverflowFault` and `arithmeticOverflowFault` exist only under non-default parameters (R146). -/
inductive FaultKind where
  | noFault
  | invalidImm
  | invalidOpc
  | invalidLine
  | invalidInstruction
  | emptyStackError
  | invalidRegisterError
  | invalidPcError
  | inputNotSupported
  | outputEncodingFault
  | stackOverflowFault
  | arithmeticOverflowFault
deriving DecidableEq, Repr

/-- The class of a fault kind (60_exceptions.md R140, R141). -/
inductive FaultClass where
  | noFault
  | decodeTime
  | runTime
deriving DecidableEq, Repr

/-- `fault_info`, the value a fault carries (60_exceptions.md R141, R142, R144): nothing, the offending line or operand
field, an instruction address, or the offending register id. -/
inductive FaultInfo where
  | nothing
  | text (line : Line)
  | address (a : Word)
  | register (id : Byte)
deriving DecidableEq, Repr

/-- Everything 10_state.md gives the core. -/
structure State where
  /-- `x[0]` to `x[5]` (R10). -/
  regs : Regs
  /-- The program counter: the index of an instruction (R14). -/
  pc : Word
  /-- The operand stack, THE TOP FIRST: the spec's `[s_0, ..., s_(depth-1)]` read from its end (R16; DESIGN CHOICE, safe: entry 2). -/
  stack : List Word
  /-- The program store: the word at index a is the instruction at address a, and its length is N (R19; 30_encoding.md
  R63; DESIGN CHOICE, safe: entry 1). -/
  program : List Diw
  /-- The output stream, the first byte written first; the boundaries of writes are not kept (R20; UNVERIFIED, safe:
  entry 11). -/
  out : List Byte
  /-- `status` (R21). -/
  status : Status
  /-- `fault_kind` (R22). -/
  faultKind : FaultKind
  /-- `fault_info` (R22). -/
  faultInfo : FaultInfo
deriving DecidableEq, Repr

/-- Reset (10_state.md R26, 70_reset_and_hazards.md R170): every value is one the spec gives,
those of the store, the output, the status and the fault record by its own decision (UNVERIFIED, unsafe: entry 23). -/
def State.reset : State where
  regs := ⟨0, 0, 0, 0, 0, 0⟩
  pc := 0
  stack := []
  program := []
  out := []
  status := .idle
  faultKind := .noFault
  faultInfo := .nothing

/-- Why a step stops with a fault. No instruction raises one of these: an instruction that faults takes the core to a
next state with status FAULTED (60_exceptions.md R147). -/
inductive Fault where
  /-- Raised by `step` in a core whose status is FAULTED, which "has no step" (50_fetch_execute.md R128). Safe. -/
  | coreFaulted
  /-- Raised by `step` in a core whose status is LOAD_FAILED, which "has no step" (50_fetch_execute.md R128). Safe. -/
  | loadFailed
deriving DecidableEq, Repr

/-- Why the model gives a step or a move of the host no meaning. -/
inductive Refusal where
  /-- Raised by an arm of `exec` whose instruction has no meaning yet; no arm is left so. Safe. -/
  | notModelled (mnemonic : String)
  /-- Raised by `step` in a core that waits for the host's load or run, IDLE or LOADED (60_exceptions.md R162). Safe. -/
  | awaitsHost
  /-- Raised by `step` in a core whose status is EXITED, which "has no step" (50_fetch_execute.md R128). Safe. -/
  | exited
  /-- Raised by the host's load and run in a status where they are not legal (20_memory.md R41,
  93_implementation_defined.md U17). Safe. -/
  | illegalHostMove
  /-- Raised by load for an operand field of 2^64 or more symbols (30_encoding.md R55, U15). Safe; unreachable. -/
  | operandTooLong
  /-- Raised by load for a text whose line count passes PROG_CAPACITY or 2^64 - 1 (20_memory.md R33, D31). Safe;
  unreachable on this hardware. -/
  | programTooLong
  /-- Raised by Move under MOVE_HIGH_BITS = refuse for an operand of 65536 or more (93_implementation_defined.md U8).
  Safe; this hardware ignores those bits and never raises it. -/
  | moveHighBits
deriving DecidableEq, Repr

/-- What a step, an instruction or a move of the host answers. -/
abbrev Result := Host.Outcome State Fault Refusal

end Sys2Proof.Machine
end

