-- ==== Sys2Proof/Machine/Flags.lean ====
section
/-! DEFINITION. "There are no flags, no condition codes and no predicates" (10_state.md R23), so no instruction computes
one. The codes of the status and of the fault kinds, which the host reads, stand here, and the one condition on an
arithmetic result that a parameter of the hardware can ask about. -/

namespace Sys2Proof.Machine

/-- The code of `status` (10_state.md R21). -/
def Status.code : Status → Nat
  | .idle => 0
  | .loaded => 1
  | .running => 2
  | .exited => 3
  | .faulted => 4
  | .loadFailed => 5

/-- The code of `fault_kind` (60_exceptions.md R141). -/
def FaultKind.code : FaultKind → Byte
  | .noFault => 0x00
  | .invalidImm => 0x01
  | .invalidOpc => 0x02
  | .invalidLine => 0x03
  | .invalidInstruction => 0x11
  | .emptyStackError => 0x12
  | .invalidRegisterError => 0x13
  | .invalidPcError => 0x14
  | .inputNotSupported => 0x15
  | .outputEncodingFault => 0x16
  | .stackOverflowFault => 0x17
  | .arithmeticOverflowFault => 0x18

/-- The class of a fault kind (60_exceptions.md R141, the column "class"). -/
def FaultKind.faultClass : FaultKind → FaultClass
  | .noFault => .noFault
  | .invalidImm => .decodeTime
  | .invalidOpc => .decodeTime
  | .invalidLine => .decodeTime
  | .invalidInstruction => .runTime
  | .emptyStackError => .runTime
  | .invalidRegisterError => .runTime
  | .invalidPcError => .runTime
  | .inputNotSupported => .runTime
  | .outputEncodingFault => .runTime
  | .stackOverflowFault => .runTime
  | .arithmeticOverflowFault => .runTime

/-- The exact sum passes 2^64 - 1. It sets no flag: only ADD_OVERFLOW = fault asks (41_arith.md R85). -/
def sumPasses64Bits (a b : Word) : Bool :=
  decide (2 ^ 64 ≤ a.toNat + b.toNat)

end Sys2Proof.Machine
end

