-- ==== Sys2Proof/Machine/Operands.lean ====
section
/-! DEFINITION. What an instruction reads its 64-bit operand as. There is one operand form, the immediate n
(30_encoding.md R53); Move takes two register ids from it (R59), Pop and Print a count, Push, Add and Mul a value, Jump
an address (R56). -/

namespace Sys2Proof.Machine

/-- `src = n[15:8]` (30_encoding.md R59). -/
def moveSrc (n : Word) : Byte :=
  n.extractLsb' 8 8

/-- `dst = n[7:0]` (30_encoding.md R59). -/
def moveDst (n : Word) : Byte :=
  n.extractLsb' 0 8

/-- Some bit of n[63:16] is set; those bits take no part in Move under MOVE_HIGH_BITS = ignore (30_encoding.md R59). -/
def moveHasHighBits (n : Word) : Bool :=
  decide (65536 ≤ n.toNat)

/-- The register an 8-bit id names: 0 to 5, and none for an id of 6 to 255 (10_state.md R12). -/
def RegId.ofByte (id : Byte) : Option RegId :=
  match id.toNat with
  | 0 => some .r0
  | 1 => some .r1
  | 2 => some .r2
  | 3 => some .r3
  | 4 => some .r4
  | 5 => some .r5
  | _ => none

/-- The id of a register (10_state.md R10). -/
def RegId.toByte : RegId → Byte
  | .r0 => 0
  | .r1 => 1
  | .r2 => 2
  | .r3 => 3
  | .r4 => 4
  | .r5 => 5

/-- The operand that names a source and a destination: `n = 256*src + dst` (44_move.md R103, R107). -/
def moveOperand (src dst : RegId) : Word :=
  BitVec.ofNat 64 (256 * src.toByte.toNat + dst.toByte.toNat)

/-- How many times Pop and Print pop: n read as a repeat count (40_stack.md R82, 42_io.md R92). -/
def repeatCount (n : Word) : Nat :=
  n.toNat

/-- `v[7:0]`, the one byte a popped value becomes (20_memory.md R34, 42_io.md R92). -/
def lowByte (v : Word) : Byte :=
  v.extractLsb' 0 8

end Sys2Proof.Machine
end

