-- ==== Sys2Proof/Machine/Text.lean ====
section
/-! DEFINITION. `WellFormedText` (42_io.md R95): the check Print makes on the bytes it has collected. -/

namespace Sys2Proof.Machine

/-- A range of bytes, both ends included. -/
structure ByteRange where
  lo : Byte
  hi : Byte
deriving DecidableEq, Repr

/-- The byte lies in the range. -/
def ByteRange.holds (r : ByteRange) (b : Byte) : Bool :=
  decide (r.lo.toNat ≤ b.toNat ∧ b.toNat ≤ r.hi.toNat)

/-- A row of R95's table: the range of the first byte, then those of the bytes that follow. -/
structure TextRow where
  first : ByteRange
  rest : List ByteRange
deriving DecidableEq, Repr

/-- The table of 42_io.md R95, row by row. -/
def utf8Rows : List TextRow :=
  [ ⟨⟨0x00, 0x7F⟩, []⟩,
    ⟨⟨0xC2, 0xDF⟩, [⟨0x80, 0xBF⟩]⟩,
    ⟨⟨0xE0, 0xE0⟩, [⟨0xA0, 0xBF⟩, ⟨0x80, 0xBF⟩]⟩,
    ⟨⟨0xE1, 0xEC⟩, [⟨0x80, 0xBF⟩, ⟨0x80, 0xBF⟩]⟩,
    ⟨⟨0xED, 0xED⟩, [⟨0x80, 0x9F⟩, ⟨0x80, 0xBF⟩]⟩,
    ⟨⟨0xEE, 0xEF⟩, [⟨0x80, 0xBF⟩, ⟨0x80, 0xBF⟩]⟩,
    ⟨⟨0xF0, 0xF0⟩, [⟨0x90, 0xBF⟩, ⟨0x80, 0xBF⟩, ⟨0x80, 0xBF⟩]⟩,
    ⟨⟨0xF1, 0xF3⟩, [⟨0x80, 0xBF⟩, ⟨0x80, 0xBF⟩, ⟨0x80, 0xBF⟩]⟩,
    ⟨⟨0xF4, 0xF4⟩, [⟨0x80, 0x8F⟩, ⟨0x80, 0xBF⟩, ⟨0x80, 0xBF⟩]⟩ ]

/-- The rows of an encoding (42_io.md R95 gives UTF-8's). -/
def textRows : TextEncoding → List TextRow
  | .utf8 => utf8Rows

/-- Reads the bytes left to right. `owed` holds the ranges the sequence in hand still has to fill; with nothing owed the
next byte opens the row whose first range holds it. The bytes end well only with nothing owed. -/
def scanText (rows : List TextRow) : List ByteRange → List Byte → Bool
  | [], [] => true
  | _ :: _, [] => false
  | [], b :: bs =>
    match rows.find? (fun row => row.first.holds b) with
    | none => false
    | some row => scanText rows row.rest bs
  | r :: owed, b :: bs => r.holds b && scanText rows owed bs

/-- `WellFormedText(bs)` (42_io.md R95). The empty sequence is well formed (R92). -/
def wellFormedText (e : TextEncoding) (bs : List Byte) : Bool :=
  scanText (textRows e) [] bs

end Sys2Proof.Machine
end

