-- ==== Sys2Proof/Machine/Ops.lean ====
section
/-! DEFINITION. The named operations over the state that the meanings are written in (00_scope.md R6): registers, the
program counter, the operand stack, the output stream, fetch, and taking a fault. Operations that a parameter of
00_scope.md R4 changes take the parameters as their first argument. -/

namespace Sys2Proof.Machine

/-! ### Registers and program counter -/

/-- `x[i]` (00_scope.md R6). -/
def Regs.read (x : Regs) : RegId → Word
  | .r0 => x.x0
  | .r1 => x.x1
  | .r2 => x.x2
  | .r3 => x.x3
  | .r4 => x.x4
  | .r5 => x.x5

/-- `x[i] <- v` (00_scope.md R6). -/
def Regs.write (x : Regs) (i : RegId) (v : Word) : Regs :=
  match i with
  | .r0 => { x with x0 := v }
  | .r1 => { x with x1 := v }
  | .r2 => { x with x2 := v }
  | .r3 => { x with x3 := v }
  | .r4 => { x with x4 := v }
  | .r5 => { x with x5 := v }

/-- The read of a register. -/
def State.readReg (s : State) (i : RegId) : Word :=
  s.regs.read i

/-- The write of a register. -/
def State.writeReg (s : State) (i : RegId) (v : Word) : State :=
  { s with regs := s.regs.write i v }

/-- `pc <- t` (00_scope.md R6). -/
def State.setPc (s : State) (t : Word) : State :=
  { s with pc := t }

/-- `pc <- (pc + 1) mod 2^64` (10_state.md R15). -/
def State.advance (s : State) : State :=
  s.setPc (s.pc + 1)

/-! ### The operand stack -/

/-- `depth` (10_state.md R16). -/
def State.depth (s : State) : Nat :=
  s.stack.length

/-- The stack stands at STACK_CAPACITY; never with the unbounded stack of this hardware (40_stack.md R81). -/
def stackIsFull (p : Params) (s : State) : Bool :=
  match p.stackCapacity with
  | none => false
  | some c => decide (c ≤ s.depth)

/-- `StackPush(v)` (10_state.md R16). -/
def State.stackPush (s : State) (v : Word) : State :=
  { s with stack := v :: s.stack }

/-- `StackPop()`: the top element and the state without it, or none on an empty stack (10_state.md R16, R17). -/
def State.stackPop (s : State) : Option (Word × State) :=
  match s.stack with
  | [] => none
  | v :: rest => some (v, { s with stack := rest })

/-- What a repetition of pops ends in: every value popped, in pop order, or the first pop that found the stack empty.
The state holds the effects of the pops made (60_exceptions.md R148). -/
inductive Popped where
  | all (vs : List Word) (s : State)
  | empty (s : State)
deriving DecidableEq, Repr

/-- One more value in front of those popped after it. -/
def Popped.after (v : Word) : Popped → Popped
  | .all vs s => .all (v :: vs) s
  | .empty s => .empty s

/-- `repeat n times: pop`, the loop of Pop and of Print; each popped value goes to the scratch register when
`toScratch` holds (40_stack.md R82, 42_io.md R92, R94). -/
def popTimes (toScratch : Bool) : Nat → State → Popped
  | 0, s => .all [] s
  | k + 1, s =>
    match s.stackPop with
    | none => .empty s
    | some (v, s') => (popTimes toScratch k (if toScratch then s'.writeReg .r0 v else s')).after v

/-! ### The output stream -/

/-- `OutWrite(bs)`: one write (10_state.md R20). -/
def State.outWrite (s : State) (bs : List Byte) : State :=
  { s with out := s.out ++ bs }

/-! ### Fetch -/

/-- `ProgRead(a)`, and none where a is not below N (10_state.md R19, 20_memory.md R32). -/
def State.progRead (s : State) (a : Word) : Option Diw :=
  s.program[a.toNat]?

/-! ### Taking a fault, and stopping -/

/-- The status a fault of a class ends in: "FAULTED (run-time) or LOAD_FAILED (decode-time)" (60_exceptions.md R147). -/
def FaultClass.status (current : Status) : FaultClass → Status
  | .noFault => current
  | .decodeTime => .loadFailed
  | .runTime => .faulted

/-- `raise F(info)`, fault entry (60_exceptions.md R147): the fault record and the status are written, and nothing else;
the core halts because the new status has no step. There is no return from a fault (R149).
What was done before the raise stays (R148; UNVERIFIED, unsafe for a FAULTED core's registers and stack: entry 13). -/
def raise (k : FaultKind) (info : FaultInfo) (s : State) : State :=
  { s with faultKind := k, faultInfo := info, status := k.faultClass.status s.status }

/-- `halt_ok` (45_exit_invalid.md R108). -/
def haltOk (s : State) : State :=
  { s with status := .exited }

/-! ### The shape Push, Add and Mul share -/

/-- `StackPush(v); pc <- pc + 1`, with the check a finite STACK_CAPACITY adds (40_stack.md R80, R81). -/
def pushAndAdvance (p : Params) (v : Word) (s : State) : Result :=
  if stackIsFull p s then .next (raise .stackOverflowFault .nothing s)
  else .next (s.stackPush v).advance

end Sys2Proof.Machine
end

