-- ==== Sys2Proof/Machine/Arith.lean ====
section
/-! DEFINITION. Add and Mul (41_arith.md). Both read `x[1]`, push, and pop nothing. -/

namespace Sys2Proof.Machine

/-- Add under given parameters: the sum modulo 2^64, or ArithmeticOverflowFault, tested before the push, under
ADD_OVERFLOW = fault (41_arith.md R85, 60_exceptions.md R151 item 7). -/
def addWith (p : Params) (n : Word) (s : State) : Result :=
  if p.addOverflow = .fault ∧ sumPasses64Bits (s.readReg .r1) n then
    .next (raise .arithmeticOverflowFault .nothing s)
  else pushAndAdvance p (s.readReg .r1 + n) s

/-- `Add(n)` (41_arith.md R85). -/
def execAdd (n : Word) (s : State) : Result :=
  addWith params n s

/-- Mul under given parameters: the product modulo 2^64, with no case of its own for `x[1] = 0` (41_arith.md R87,
R88). -/
def mulWith (p : Params) (n : Word) (s : State) : Result :=
  pushAndAdvance p (s.readReg .r1 * n) s

/-- `Mul(n)` (41_arith.md R87). -/
def execMul (n : Word) (s : State) : Result :=
  mulWith params n s

end Sys2Proof.Machine
end

