-- ==== Sys2Proof/Machine/Control.lean ====
section
/-! DEFINITION. Jump (43_jump.md), the only control transfer (R102). -/

namespace Sys2Proof.Machine

/-- `Jump(n)`: `pc <- n`, no increment and no bounds check (43_jump.md R99, R100). `Jump(0)` reaches address 0
(UNVERIFIED, unsafe: entry 12). -/
def execJump (n : Word) (s : State) : Result :=
  .next (s.setPc n)

end Sys2Proof.Machine
end

