-- ==== Sys2Proof/Machine/Halt.lean ====
section
/-! DEFINITION. Exit and Invalid (45_exit_invalid.md). -/

namespace Sys2Proof.Machine

/-- `Exit`: success; the program counter keeps the address of the Exit (45_exit_invalid.md R108). -/
def execExit (_n : Word) (s : State) : Result :=
  .next (haltOk s)

/-- `Invalid`: the fault carries the address of the Invalid instruction, which `pc` holds while it executes
(45_exit_invalid.md R110). -/
def execInvalid (_n : Word) (s : State) : Result :=
  .next (raise .invalidInstruction (.address s.pc) s)

end Sys2Proof.Machine
end

