-- ==== Sys2Proof/Machine/Io.lean ====
section
/-! DEFINITION. Print and Input (42_io.md). -/

namespace Sys2Proof.Machine

/-- Print under given parameters: the pops first, then the text check, then one write (42_io.md R92 to R95). -/
def printWith (p : Params) (n : Word) (s : State) : Result :=
  match popTimes p.printWritesScratch (repeatCount n) s with
  | .empty s' => .next (raise .emptyStackError .nothing s')
  | .all vs s' =>
    if wellFormedText p.textEncoding (vs.map lowByte) then .next (s'.outWrite (vs.map lowByte)).advance
    else .next (raise .outputEncodingFault .nothing s')

/-- `Print(n)` (42_io.md R92). -/
def execPrint (n : Word) (s : State) : Result :=
  printWith params n s

/-- `Input(n)`: "always fails"; the operand is ignored (42_io.md R97). -/
def execInput (_n : Word) (s : State) : Result :=
  .next (raise .inputNotSupported .nothing s)

end Sys2Proof.Machine
end

