-- ==== Sys2Proof/Machine/Move.lean ====
section
/-! DEFINITION. Move (44_move.md). -/

namespace Sys2Proof.Machine

/-- Move under given parameters. The source id is tested first, then the destination id, and a register is written only
if both are valid (44_move.md R103, R104). -/
def moveWith (p : Params) (n : Word) (s : State) : Result :=
  if p.moveHighBits = .refuse ∧ moveHasHighBits n then .refused .moveHighBits
  else
    match RegId.ofByte (moveSrc n) with
    | none => .next (raise .invalidRegisterError (.register (moveSrc n)) s)
    | some src =>
      match RegId.ofByte (moveDst n) with
      | none => .next (raise .invalidRegisterError (.register (moveDst n)) s)
      | some dst => .next (s.writeReg dst (s.readReg src)).advance

/-- `Move(n)` (44_move.md R103). -/
def execMove (n : Word) (s : State) : Result :=
  moveWith params n s

end Sys2Proof.Machine
end

