-- ==== Sys2Proof/Machine/Stack.lean ====
section
/-! DEFINITION. Push and Pop (40_stack.md). -/

namespace Sys2Proof.Machine

/-- Push under given parameters (40_stack.md R80, R81). -/
def pushWith (p : Params) (n : Word) (s : State) : Result :=
  pushAndAdvance p n s

/-- `Push(n)` (40_stack.md R80). -/
def execPush (n : Word) (s : State) : Result :=
  pushWith params n s

/-- `Pop(n)`: n is a repeat count (40_stack.md R82). -/
def execPop (n : Word) (s : State) : Result :=
  match popTimes true (repeatCount n) s with
  | .empty s' => .next (raise .emptyStackError .nothing s')
  | .all _ s' => .next s'.advance

end Sys2Proof.Machine
end

