-- ==== Sys2Proof/Machine/Dispatch.lean ====
section
/-! DEFINITION. One arm per kind of instruction (50_fetch_execute.md R120, step 3). -/

namespace Sys2Proof.Machine

-- The meaning of an instruction, run by step 3 of a loop pass with n the operand of the fetched Instruction.
def exec (i : Instr) (s : State) : Host.Outcome State Fault Refusal :=
  match i with
  | .push n => Sys2Proof.Machine.execPush n s
  | .pop n => Sys2Proof.Machine.execPop n s
  | .add n => Sys2Proof.Machine.execAdd n s
  | .mul n => Sys2Proof.Machine.execMul n s
  | .print n => Sys2Proof.Machine.execPrint n s
  | .input n => Sys2Proof.Machine.execInput n s
  | .jump n => Sys2Proof.Machine.execJump n s
  | .move n => Sys2Proof.Machine.execMove n s
  | .exit n => Sys2Proof.Machine.execExit n s
  | .invalid n => Sys2Proof.Machine.execInvalid n s

end Sys2Proof.Machine
end

