-- ==== Sys2Proof/Machine/Loop.lean ====
section
/-! DEFINITION. One pass of the fetch-execute loop (50_fetch_execute.md R120), and the placing of a word where the next
pass fetches it. -/

namespace Sys2Proof.Machine

/-- One pass of the loop body: the bounds check, the fetch, the execution with its advance of `pc` (50_fetch_execute.md
R120, R122 to R125). -/
def loopPass (s : State) : Result :=
  match s.progRead s.pc with
  | none => .next (raise .invalidPcError (.address s.pc) s)
  | some d => exec (decode d) s

/-- One step by status: a RUNNING core makes a loop pass; a core in another status has no step (50_fetch_execute.md
R128), IDLE and LOADED because they wait for the host (60_exceptions.md R162; DESIGN CHOICE, safe: entries 4 and 5). -/
def stepByStatus (s : State) : Result :=
  match s.status with
  | .running => loopPass s
  | .idle => .refused .awaitsHost
  | .loaded => .refused .awaitsHost
  | .exited => .refused .exited
  | .faulted => .fault .coreFaulted
  | .loadFailed => .fault .loadFailed

/-- The store with a word at address a: the words below and above stay, and a shorter store is filled up to a with
words that hold Invalid. -/
def storeWithWord (program : List Diw) (a : Nat) (d : Diw) : List Diw :=
  program.take a ++ List.replicate (a - program.length) (encode (.invalid 0)) ++ d :: program.drop (a + 1)

end Sys2Proof.Machine
end

