-- ==== Sys2Proof/Machine/Step.lean ====
section
/-! DEFINITION. The step, and the host's way to place one instruction where the next step fetches it. -/

namespace Sys2Proof.Machine

/-- One step of the core (50_fetch_execute.md R120, R128). -/
def step : State → Host.Outcome State Fault Refusal :=
  stepByStatus

/-- `s` with the decoded instruction word `w` (its bits at and above `nbits` zero) at the address `pc` holds, and the
core RUNNING: what a load of a program with that word and a run leave (30_encoding.md R66, 50_fetch_execute.md R121; DESIGN
CHOICE, safe: entry 6). -/
def State.withFetchWord (s : State) (nbits w : Nat) : State :=
  { s with
    program := storeWithWord s.program s.pc.toNat (BitVec.ofNat 68 (w % 2 ^ nbits))
    status := .running }

end Sys2Proof.Machine
end

