-- ==== Sys2Proof/Machine/HostPort.lean ====
section
/-! DEFINITION. The host interface (20_memory.md R41): the three moves of the host, and what it can read. -/

namespace Sys2Proof.Machine

/-- `load` and `run` are legal when `status` is IDLE or LOADED (20_memory.md R41). -/
def hostMayCommand (s : State) : Bool :=
  s.status == .idle || s.status == .loaded

/-- The text has more lines than the program store takes: N stays below 2^64 and within PROG_CAPACITY (20_memory.md
R33). -/
def programIsTooLong (p : Params) (lines : Nat) : Bool :=
  decide (2 ^ 64 ≤ lines) ||
    match p.progCapacity with
    | none => false
    | some c => decide (c < lines)

/-- A load whose text failed to decode: the program store is left empty and the fault is taken (30_encoding.md R67). -/
def loadFailure (k : FaultKind) (carried : Line) (s : State) : State :=
  raise k (.text carried) { s with program := [] }

/-- `load(text)` under given parameters (30_encoding.md R66, R67). A text too long for 64-bit addresses is refused before
it is decoded (DESIGN CHOICE, safe: entry 9). -/
def loadWith (p : Params) (text : List Scalar) (s : State) : Result :=
  if hostMayCommand s then
    if programIsTooLong p (splitLines p text).length then .refused .programTooLong
    else
      match decodeText p text with
      | .ok is => .next { s with program := is.map encode, status := .loaded }
      | .error (.invalidLine l) => .next (loadFailure .invalidLine l s)
      | .error (.invalidImm f) => .next (loadFailure .invalidImm f s)
      | .error .operandTooLong => .refused .operandTooLong
  else .refused .illegalHostMove

/-- `load(text)` (30_encoding.md R66). -/
def hostLoad (text : List Scalar) (s : State) : Result :=
  loadWith params text s

/-- `run`: `status` becomes RUNNING and nothing else changes (50_fetch_execute.md R121, R133). -/
def hostRun (s : State) : Result :=
  if hostMayCommand s then .next { s with status := .running } else .refused .illegalHostMove

/-- `reset`, legal in every status (70_reset_and_hazards.md R170). -/
def hostReset (_s : State) : Result :=
  .next State.reset

/-- The moves of the host (20_memory.md R41). -/
inductive HostMove where
  | reset
  | load (text : List Scalar)
  | run
deriving DecidableEq, Repr

/-- A move of the host, made between two steps of the core (DEDUCED, safe: entry 7). -/
def hostMove (m : HostMove) (s : State) : Result :=
  match m with
  | .reset => hostReset s
  | .load text => hostLoad text s
  | .run => hostRun s

/-- What the host can read at any time: "`status`, the fault record, and the whole of `out`" (20_memory.md R41,
50_fetch_execute.md R129). -/
structure HostView where
  status : Status
  faultKind : FaultKind
  faultInfo : FaultInfo
  out : List Byte
deriving DecidableEq, Repr

/-- The host's view of a state. -/
def State.hostView (s : State) : HostView :=
  { status := s.status, faultKind := s.faultKind, faultInfo := s.faultInfo, out := s.out }

end Sys2Proof.Machine
end

