-- ==== Sys2Proof/Safety.lean ====
section
/-! DEFINITION. What a run is, how it ends, what counts as safe (50_fetch_execute.md R129, R130), and the invariant of
the core that its steps and the host's moves keep. -/

namespace Sys2Proof.Machine

/-- Success: an Exit was executed. "Only `EXITED` is a final state in the sense of a correctness claim"
(50_fetch_execute.md R129). -/
def State.endedWell (s : State) : Prop :=
  s.status = .exited

/-- "a `FAULTED` core has gone wrong" (50_fetch_execute.md R129); a failed load is the same outcome for the host. -/
def State.aborted (s : State) : Prop :=
  s.status = .faulted ∨ s.status = .loadFailed

/-- No run of any number of steps from `s` comes to a FAULTED core. A run that goes on forever is safe
(50_fetch_execute.md R131). -/
def State.neverFaults (s : State) : Prop :=
  ∀ k t, Host.Core.run core k s = .next t → t.status ≠ .faulted

/-- The states of the machine in use: reset, then steps of the core and moves of the host. -/
inductive Reachable : State → Prop where
  | reset : Reachable State.reset
  | step {s t : State} (h : Reachable s) (hs : step s = .next t) : Reachable t
  | host {s t : State} (m : HostMove) (h : Reachable s) (hm : hostMove m s = .next t) : Reachable t

/-- The instruction at `pc`, if there is one. -/
def State.fetched (s : State) : Option Instr :=
  (s.progRead s.pc).map decode

/-- What the fault record of a FAULTED core says, and what it says it of (60_exceptions.md R141, R144, R148): the kind
and the carried value belong together, and `pc` still stands at the cause. -/
def faultRecordExplained (s : State) : Prop :=
  match s.faultKind with
  | .invalidPcError => s.faultInfo = .address s.pc ∧ s.program.length ≤ s.pc.toNat
  | .invalidInstruction => s.faultInfo = .address s.pc ∧ ∃ n, s.fetched = some (.invalid n)
  | .inputNotSupported => s.faultInfo = .nothing ∧ ∃ n, s.fetched = some (.input n)
  | .emptyStackError =>
    s.faultInfo = .nothing ∧ s.stack = [] ∧
      ∃ n, n ≠ 0 ∧ (s.fetched = some (.pop n) ∨ s.fetched = some (.print n))
  | .invalidRegisterError =>
    ∃ id n, s.faultInfo = .register id ∧ 6 ≤ id.toNat ∧ s.fetched = some (.move n) ∧
      (id = moveSrc n ∨ ((moveSrc n).toNat ≤ 5 ∧ id = moveDst n))
  | .outputEncodingFault => s.faultInfo = .nothing ∧ ∃ n, s.fetched = some (.print n)
  | _ => False

/-- What the fault record of a core whose load failed says (60_exceptions.md R141, R142). -/
def loadRecordExplained (s : State) : Prop :=
  (s.faultKind = .invalidLine ∧ ∃ l, s.faultInfo = .text l ∧ l.count params.symDelim ≠ 1) ∨
    (s.faultKind = .invalidImm ∧ ∃ f, s.faultInfo = .text f ∧ ∃ c ∈ f, c ≠ params.symC)

/-- The fault record is clear (10_state.md R22). -/
def State.noFaultRecorded (s : State) : Prop :=
  s.faultKind = .noFault ∧ s.faultInfo = .nothing

/-- The registers, the program counter, the stack and the output stand as reset left them. -/
def State.untouched (s : State) : Prop :=
  s.regs = State.reset.regs ∧ s.pc = State.reset.pc ∧ s.stack = [] ∧ s.out = []

/-- The status and the rest of the state agree (10_state.md R21, R22; 70_reset_and_hazards.md R171, R174). -/
def statusExplained (s : State) : Prop :=
  match s.status with
  | .idle => s.untouched ∧ s.program = [] ∧ s.noFaultRecorded
  | .loaded => s.untouched ∧ s.noFaultRecorded
  | .running => s.noFaultRecorded
  | .exited => s.noFaultRecorded ∧ ∃ n, s.fetched = some (.exit n)
  | .faulted => faultRecordExplained s
  | .loadFailed => s.untouched ∧ s.program = [] ∧ loadRecordExplained s

/-- The invariant of the core. -/
structure Inv (s : State) : Prop where
  /-- N is below 2^64 (20_memory.md R33). -/
  programFits : s.program.length < 2 ^ 64
  /-- The store holds words a line produces only: no tag above 0x9 (30_encoding.md R63). -/
  wordsWellFormed : ∀ d ∈ s.program, diwWellFormed d = true
  /-- The output is well-formed text: every write was (42_io.md R95). -/
  outputIsText : wellFormedText params.textEncoding s.out = true
  /-- The status, the fault record and the rest agree. -/
  statusFits : statusExplained s

end Sys2Proof.Machine
end

