-- ==== Sys2Proof/Certificates/Slice0/Obligations.lean ====
section
/-! DEFINITION. The statements for the provers. Each formalises, or is derived from, the rule of spec/ its docstring
names. The operand stack of the model stands the top first, so the spec's `S = [s_0, ..., s_(d-1)]` is read from its
end. "(model: entry n)" names notes/assumptions/n.md; "(spec: D<n>)" names a decision of spec/92_eei_decisions.md, the
spec's own choice. -/

open Sys2Proof Sys2Proof.Machine

/-! ### Reset and the host's moves -/

/-- 10_state.md R26, 70_reset_and_hazards.md R170: what reset leaves. The values of the store, the output, the status
and the fault record are the spec's own (spec: D18, D20). -/
def Obligations.ResetLeavesTheStatedValues : Prop :=
  (∀ r, State.reset.readReg r = 0) ∧ State.reset.pc = 0 ∧ State.reset.stack = [] ∧ State.reset.program = [] ∧
    State.reset.out = [] ∧ State.reset.status = .idle ∧ State.reset.faultKind = .noFault ∧
    State.reset.faultInfo = .nothing ∧ ∀ s, hostMove .reset s = .next State.reset

/-- 50_fetch_execute.md R121, R133, 20_memory.md R41: run is legal in IDLE and LOADED, makes the core RUNNING and
changes nothing else; elsewhere the model refuses it (spec: D20, D22; model: entry 5). -/
def Obligations.RunCommandOnlySetsStatus : Prop :=
  (∀ s, s.status = .idle ∨ s.status = .loaded → hostMove .run s = .next { s with status := .running }) ∧
    (∀ s, s.status ≠ .idle → s.status ≠ .loaded → hostMove .run s = .refused .illegalHostMove) ∧
    ∀ s : State, s.status = .idle → s.pc = 0 → s.program = [] →
      step { s with status := .running } =
        .next { s with status := .faulted, faultKind := .invalidPcError, faultInfo := .address 0 }

/-- 30_encoding.md R66: a load whose lines all decode writes the store and the status and nothing else (spec: D22 for
the statuses; model: entry 9 for the bound on the number of lines). -/
def Obligations.LoadStoresTheDecodedLines : Prop :=
  ∀ (text : List Scalar) (is : List Instr) (s : State),
    s.status = .idle ∨ s.status = .loaded →
    (splitLines params text).length < 2 ^ 64 →
    (splitLines params text).map (decodeLine params) = is.map Except.ok →
    ∃ t, hostMove (.load text) s = .next t ∧ t = { s with program := is.map encode, status := .loaded } ∧
      t.program.length = (splitLines params text).length ∧
      ∀ a i, is[a]? = some i → (t.progRead (BitVec.ofNat 64 a)).map decode = some i

/-- 30_encoding.md R67, 60_exceptions.md R151 items 2 and 3: the first line that raises decides the fault, the store is
left empty, nothing else changes (spec: D5, D28; model: entry 9 for the bound). -/
def Obligations.LoadFailsAtTheFirstBadLine : Prop :=
  ∀ (text : List Scalar) (good : List Line) (bad : Line) (rest : List Line) (s : State),
    s.status = .idle ∨ s.status = .loaded →
    (splitLines params text).length < 2 ^ 64 →
    splitLines params text = good ++ bad :: rest →
    (∀ l ∈ good, lineWellFormed params l = true) →
    (lineHasTwoFields params bad = false →
      hostMove (.load text) s = .next { s with
        program := [], status := .loadFailed, faultKind := .invalidLine, faultInfo := .text bad }) ∧
    (lineHasTwoFields params bad = true → lineTailIsUnary params bad = false →
      hostMove (.load text) s = .next { s with
        program := [], status := .loadFailed, faultKind := .invalidImm, faultInfo := .text (lineTail params bad) })

/-- 30_encoding.md R51, R66, R68: the text of any program, loaded, is that program in the store (spec: D4 for the cut
into lines, D22; model: entry 14 for the line of an Invalid). -/
def Obligations.EncodedTextLoadsBack : Prop :=
  ∀ (is : List Instr) (s : State), is ≠ [] → is.length < 2 ^ 64 → s.status = .idle ∨ s.status = .loaded →
    hostMove (.load (encodeText params is)) s = .next { s with program := is.map encode, status := .loaded }

/-- 10_state.md R21, 60_exceptions.md R149: EXITED, FAULTED and LOAD_FAILED are terminal: no step, and of the host's
moves only reset (spec: D18, D22; the outcomes that say "no step" are the model's: entries 4 and 5). -/
def Obligations.OnlyResetLeavesATerminalStatus : Prop :=
  ∀ s : State, s.status = .exited ∨ s.status = .faulted ∨ s.status = .loadFailed →
    (∀ t, step s ≠ .next t) ∧ (∀ m t, hostMove m s = .next t → m = .reset ∧ t = State.reset) ∧
      hostMove .reset s = .next State.reset

/-! ### The loop -/

/-- 50_fetch_execute.md R120: a step of a RUNNING core runs the instruction the word at `pc` decodes to, and adds
nothing around it: `pc` moves inside the instruction's meaning. -/
def Obligations.StepRunsTheDecodedInstruction : Prop :=
  ∀ (s : State) (d : Diw) (i : Instr), s.status = .running → s.program[s.pc.toNat]? = some d → decode d = i →
    step s = exec i s

/-- 50_fetch_execute.md R122: the bounds check at fetch, in the situations the rule lists: in general, with an empty
store, after running off the end, after a Jump out of range. No other state changes. -/
def Obligations.FetchOutsideTheProgramFaults : Prop :=
  (∀ s : State, s.status = .running → s.program.length ≤ s.pc.toNat →
    step s = .next { s with status := .faulted, faultKind := .invalidPcError, faultInfo := .address s.pc }) ∧
  (∀ s : State, s.status = .running → s.program = [] → ∃ t, step s = .next t ∧ t.faultKind = .invalidPcError ∧
    t.status = .faulted ∧ t.faultInfo = .address s.pc) ∧
  (∀ (s t : State) (N : Nat), s.status = .running → s.program.length = N → N < 2 ^ 64 → s.pc.toNat + 1 = N →
    step s = .next t → t.status = .running → t.pc = s.pc + 1 →
    step t = .next { t with
      status := .faulted, faultKind := .invalidPcError, faultInfo := .address (BitVec.ofNat 64 N) }) ∧
  ∀ (s : State) (n : Word), s.status = .running → s.program.length ≤ n.toNat →
    ∃ t, exec (.jump n) s = .next t ∧ t.status = .running ∧
      step t = .next { t with status := .faulted, faultKind := .invalidPcError, faultInfo := .address n }

/-- 50_fetch_execute.md R128: a RUNNING core can always step, and its step is one of three outcomes. -/
def Obligations.RunningCoreAlwaysSteps : Prop :=
  ∀ s : State, s.status = .running → ∃ t, step s = .next t ∧
    (t.status = .running ∨ t.status = .exited ∨ (t.status = .faulted ∧ t.faultKind ≠ .noFault))

/-- 50_fetch_execute.md R125, 10_state.md R15: the program counter after each kind: n after a Jump, `pc` + 1 after every
other instruction that completes, unchanged when the instruction raises or is Exit (spec: D25, D26). -/
def Obligations.ProgramCounterAfterEachKind : Prop :=
  ∀ (i : Instr) (s t : State), s.status = .running → exec i s = .next t →
    (∀ n, i = .jump n → t.status = .running ∧ t.pc = n) ∧
    ((∀ n, i ≠ .jump n) → t.status = .running → t.pc = s.pc + 1) ∧
    (t.status ≠ .running → t.pc = s.pc)

/-- 43_jump.md R102, 50_fetch_execute.md R127: the addresses a run visits are fixed by the program, whatever the data:
two runs of one program from one address, with any registers, stacks and outputs, stand at the same address after the
same number of steps, if both still run. -/
def Obligations.DataNeverSteersTheProgramCounter : Prop :=
  ∀ (k : Nat) (s₁ s₂ t₁ t₂ : State), s₁.program = s₂.program → s₁.pc = s₂.pc →
    s₁.status = .running → s₂.status = .running →
    Host.Core.run core k s₁ = .next t₁ → Host.Core.run core k s₂ = .next t₂ →
    t₁.status = .running → t₂.status = .running → t₁.pc = t₂.pc

/-- 20_memory.md R43: the store is written only by load, load is not legal while the core runs, and within one run
every fetch of an address gives the Instruction decoded from its line. -/
def Obligations.ProgramStoreIsWrittenByLoadOnly : Prop :=
  (∀ (k : Nat) (s t : State), Host.Core.run core k s = .next t → t.program = s.program) ∧
  (∀ (s : State) (text : List Scalar), s.status = .running → ∀ t, hostMove (.load text) s ≠ .next t) ∧
  ∀ (text : List Scalar) (s l r t : State) (k a : Nat) (line : Line),
    hostMove (.load text) s = .next l → l.status = .loaded → hostMove .run l = .next r →
    Host.Core.run core k r = .next t → (splitLines params text)[a]? = some line →
    ∃ i, decodeLine params line = .ok i ∧ (t.progRead (BitVec.ofNat 64 a)).map decode = some i

/-- 50_fetch_execute.md R131, 43_jump.md R99: a Jump to its own address never ends and changes no state. -/
def Obligations.JumpToItselfRunsForever : Prop :=
  ∀ (s : State) (d : Diw), s.status = .running → s.program[s.pc.toNat]? = some d → decode d = .jump s.pc →
    ∀ k, Host.Core.run core k s = .next s

/-! ### Push, Add, Mul -/

/-- 40_stack.md R80: Push appends n to the top of the stack and advances; nothing else changes. -/
def Obligations.PushAppendsItsOperand : Prop :=
  ∀ (n : Word) (s : State), exec (.push n) s = .next { s with stack := n :: s.stack, pc := s.pc + 1 }

/-- 40_stack.md R84: the Push-Pop law. -/
def Obligations.PushThenPopRestoresTheStack : Prop :=
  ∀ (n : Word) (s : State), ∃ t u, exec (.push n) s = .next t ∧ exec (.pop 1) t = .next u ∧
    u.readReg .r0 = n ∧ u.stack.length = s.stack.length ∧ u.stack = s.stack ∧ u.pc = s.pc + 2

/-- 41_arith.md R86: Add(n) is Push(x[1] + n), and x[1] keeps its value. The sum here is one that fits 64 bits; the next
statement is about every sum. -/
def Obligations.AddIsPushOfTheSum : Prop :=
  ∀ (n : Word) (s : State), (s.readReg .r1).toNat + n.toNat < 2 ^ 64 →
    exec (.add n) s = exec (.push (BitVec.ofNat 64 ((s.readReg .r1).toNat + n.toNat))) s ∧
    ∃ t v, exec (.add n) s = .next t ∧ t.readReg .r1 = s.readReg .r1 ∧ t.stack = v :: s.stack ∧
      v.toNat = (s.readReg .r1).toNat + n.toNat

/-- 41_arith.md R85: Add pushes the exact sum modulo 2^64 and advances; nothing else changes. The wrap is the spec's own
choice (spec: D8, ADD_OVERFLOW = wrap; model: entry 16). -/
def Obligations.AddPushesTheSumModulo64Bits : Prop :=
  ∀ (n : Word) (s : State), exec (.add n) s = .next { s with
    stack := BitVec.ofNat 64 (((s.readReg .r1).toNat + n.toNat) % 2 ^ 64) :: s.stack, pc := s.pc + 1 }

/-- 41_arith.md R87: Mul pushes the low 64 bits of the exact product and advances; nothing else changes. -/
def Obligations.MulPushesTheProductModulo64Bits : Prop :=
  ∀ (n : Word) (s : State), exec (.mul n) s = .next { s with
    stack := BitVec.ofNat 64 (((s.readReg .r1).toNat * n.toNat) % 2 ^ 64) :: s.stack, pc := s.pc + 1 }

/-- 41_arith.md R88: with x[1] = 0 Mul(n) pushes 0, with x[1] = 1 it pushes n, and Mul(0) pushes 0. -/
def Obligations.MulByZeroAndByOne : Prop :=
  ∀ (n : Word) (s : State),
    (s.readReg .r1 = 0 → ∃ t, exec (.mul n) s = .next t ∧ t.stack = 0 :: s.stack) ∧
    (s.readReg .r1 = 1 → ∃ t, exec (.mul n) s = .next t ∧ t.stack = n :: s.stack) ∧
    ∃ t, exec (.mul 0) s = .next t ∧ t.stack = 0 :: s.stack

/-- 40_stack.md R81, 60_exceptions.md R146, R151 item 7: under a finite STACK_CAPACITY, Push, Add and Mul at capacity
raise StackOverflowFault and change nothing else, and below it they push; under ADD_OVERFLOW = fault an Add whose sum
passes 2^64 - 1 raises ArithmeticOverflowFault, before any push. The faults are the spec's own (spec: D8, D19). -/
def Obligations.ParameterFaultsOfPushAddMul : Prop :=
  (∀ (p : Params) (c : Nat) (n : Word) (s : State), p.stackCapacity = some c → c ≤ s.stack.length →
    pushWith p n s = .next { s with
      status := .faulted, faultKind := .stackOverflowFault, faultInfo := .nothing } ∧
    mulWith p n s = .next { s with
      status := .faulted, faultKind := .stackOverflowFault, faultInfo := .nothing } ∧
    (p.addOverflow = .wrap ∨ (s.readReg .r1).toNat + n.toNat < 2 ^ 64 → addWith p n s = .next { s with
      status := .faulted, faultKind := .stackOverflowFault, faultInfo := .nothing })) ∧
  (∀ (p : Params) (c : Nat) (n : Word) (s : State), p.stackCapacity = some c → s.stack.length < c →
    pushWith p n s = exec (.push n) s ∧ mulWith p n s = exec (.mul n) s ∧
    (p.addOverflow = .wrap ∨ (s.readReg .r1).toNat + n.toNat < 2 ^ 64 → addWith p n s = exec (.add n) s)) ∧
  ∀ (p : Params) (n : Word) (s : State), p.addOverflow = .fault → 2 ^ 64 ≤ (s.readReg .r1).toNat + n.toNat →
    addWith p n s = .next { s with
      status := .faulted, faultKind := .arithmeticOverflowFault, faultInfo := .nothing }

/-! ### Pop -/

/-- 40_stack.md R83: Pop(n) on a stack with fewer than n elements is fatal; with n or more it removes exactly n. -/
def Obligations.PopRemovesExactlyItsCount : Prop :=
  ∀ (n : Word) (s : State),
    (s.stack.length < n.toNat → ∃ t, exec (.pop n) s = .next t ∧ t.status = .faulted ∧
      t.faultKind = .emptyStackError ∧ ∀ u, step t ≠ .next u) ∧
    (n.toNat ≤ s.stack.length → ∃ t popped, exec (.pop n) s = .next t ∧ t.status = s.status ∧
      s.stack = popped ++ t.stack ∧ popped.length = n.toNat)

/-- 40_stack.md R82, the net effect: x[0] takes the last value popped (and keeps its own for n = 0), the stack loses n
elements, `pc` advances, nothing else changes. -/
def Obligations.PopNetEffect : Prop :=
  ∀ (n : Word) (s : State), n.toNat ≤ s.stack.length →
    exec (.pop n) s = .next { s with
      stack := s.stack.drop n.toNat
      regs := { s.regs with x0 := (s.stack.take n.toNat).getLast?.getD s.regs.x0 }
      pc := s.pc + 1 }

/-- 40_stack.md R82, 60_exceptions.md R148: the state a Pop of more than the depth leaves: the stack empty, x[0] the
former bottom element if there was one, `pc` at the Pop (spec: D21; entry 13). -/
def Obligations.PopPastTheBottom : Prop :=
  ∀ (n : Word) (s : State), s.stack.length < n.toNat →
    exec (.pop n) s = .next { s with
      stack := []
      regs := { s.regs with x0 := s.stack.getLast?.getD s.regs.x0 }
      status := .faulted
      faultKind := .emptyStackError
      faultInfo := .nothing }

/-- 60_exceptions.md R143: EmptyStackError is raised by a Pop or a Print exactly when it asks for more pops than the
stack holds, after all of them are popped; it carries no value; Pop(0) and Print(0) cannot raise it. -/
def Obligations.EmptyStackErrorExactlyPastTheDepth : Prop :=
  ∀ (i : Instr) (n : Word) (s : State), i = .pop n ∨ i = .print n →
    (s.stack.length < n.toNat → ∃ t, exec i s = .next t ∧ t.status = .faulted ∧
      t.faultKind = .emptyStackError ∧ t.faultInfo = .nothing ∧ t.stack = []) ∧
    (n.toNat ≤ s.stack.length → s.faultKind ≠ .emptyStackError → ∃ t, exec i s = .next t ∧
      t.faultKind ≠ .emptyStackError) ∧
    (n = 0 → s.faultKind ≠ .emptyStackError → ∃ t, exec i s = .next t ∧ t.faultKind ≠ .emptyStackError)

/-! ### Print and Input -/

/-- 42_io.md R92 to R95: a Print whose n bytes are well-formed text appends them in pop order in one write; x[0] takes
the last value popped, all 64 bits; nothing else changes (spec: D12 for x[0], D13 for the encoding, D15 for n = 0). -/
def Obligations.PrintAppendsTheLowBytes : Prop :=
  ∀ (n : Word) (s : State), n.toNat ≤ s.stack.length →
    wellFormedText .utf8 ((s.stack.take n.toNat).map (fun v => v.extractLsb' 0 8)) = true →
    exec (.print n) s = .next { s with
      stack := s.stack.drop n.toNat
      regs := { s.regs with x0 := (s.stack.take n.toNat).getLast?.getD s.regs.x0 }
      out := s.out ++ (s.stack.take n.toNat).map (fun v => v.extractLsb' 0 8)
      pc := s.pc + 1 }

/-- 42_io.md R92, corner cases: a Print of values whose low bytes are all 0x00 to 0x7F always appends them. -/
def Obligations.PrintOfPlainBytesCompletes : Prop :=
  ∀ (n : Word) (s : State), n.toNat ≤ s.stack.length →
    (∀ v ∈ s.stack.take n.toNat, v.toNat % 256 < 128) →
    ∃ t, exec (.print n) s = .next t ∧ t.status = s.status ∧ t.stack = s.stack.drop n.toNat ∧ t.pc = s.pc + 1 ∧
      t.out = s.out ++ (s.stack.take n.toNat).map (fun v => BitVec.ofNat 8 (v.toNat % 256))

/-- 42_io.md R92, R93, 60_exceptions.md R148: a Print whose bytes are not well-formed text raises OutputEncodingFault
after its pops and writes nothing (spec: D12, D13, D21; entry 13). -/
def Obligations.PrintOfIllFormedTextFaults : Prop :=
  ∀ (n : Word) (s : State), n.toNat ≤ s.stack.length →
    wellFormedText .utf8 ((s.stack.take n.toNat).map (fun v => v.extractLsb' 0 8)) = false →
    exec (.print n) s = .next { s with
      stack := s.stack.drop n.toNat
      regs := { s.regs with x0 := (s.stack.take n.toNat).getLast?.getD s.regs.x0 }
      status := .faulted
      faultKind := .outputEncodingFault
      faultInfo := .nothing }

/-- 42_io.md R92, R93, 60_exceptions.md R148, R151 item 6: a Print of more than the depth raises EmptyStackError,
whatever the bytes collected, and writes nothing (spec: D12, D14, D21; entry 13). -/
def Obligations.PrintPastTheBottom : Prop :=
  ∀ (n : Word) (s : State), s.stack.length < n.toNat →
    exec (.print n) s = .next { s with
      stack := []
      regs := { s.regs with x0 := s.stack.getLast?.getD s.regs.x0 }
      status := .faulted
      faultKind := .emptyStackError
      faultInfo := .nothing }

/-- 42_io.md R94: with PRINT_WRITES_SCRATCH = false Print leaves every register alone and does all else it does with
true (spec: D12). -/
def Obligations.PrintWithoutScratchKeepsTheRegisters : Prop :=
  ∀ (n : Word) (s t : State), exec (.print n) s = .next t →
    printWith { params with printWritesScratch := false } n s = .next { t with regs := s.regs }

/-- 42_io.md R95: WellFormedText holds of exactly the concatenations of sequences that each match one row of the rule's
table (spec: D13). -/
def Obligations.WellFormedTextIsTheTablesConcatenations : Prop :=
  ∀ bs : List Byte, wellFormedText .utf8 bs = true ↔
    ∃ seqs : List (List Byte), bs = seqs.flatten ∧ ∀ q ∈ seqs, ∃ row ∈ utf8Rows,
      List.Forall₂ (fun (r : ByteRange) (b : Byte) => r.lo.toNat ≤ b.toNat ∧ b.toNat ≤ r.hi.toNat)
        (row.first :: row.rest) q

/-- 10_state.md R20: the output only grows, only Print makes it grow, and what one instruction adds is well-formed text
(42_io.md R95; spec: D13). -/
def Obligations.OutputGrowsByPrintOnly : Prop :=
  ∀ (i : Instr) (s t : State), exec i s = .next t → ∃ bs, t.out = s.out ++ bs ∧
    wellFormedText .utf8 bs = true ∧ ((∀ n, i ≠ .print n) → bs = [])

/-- 42_io.md R97: Input always raises InputNotSupported; the operand makes no difference and nothing else changes
(spec: D16). -/
def Obligations.InputAlwaysFaults : Prop :=
  ∀ (n : Word) (s : State), exec (.input n) s = .next { s with
    status := .faulted, faultKind := .inputNotSupported, faultInfo := .nothing }

/-! ### Jump, Move, Exit, Invalid -/

/-- 43_jump.md R101, R99: after a Jump to T the next fetched instruction is the one at T; where there is none, the next
fetch faults. The Jump changes `pc` and nothing else. -/
def Obligations.JumpMakesTheTargetTheNextFetch : Prop :=
  ∀ (T : Word) (s : State), s.status = .running →
    exec (.jump T) s = .next { s with pc := T } ∧
    (∀ d, s.program[T.toNat]? = some d → step { s with pc := T } = exec (decode d) { s with pc := T }) ∧
    (s.program.length ≤ T.toNat → step { s with pc := T } = .next { s with
      pc := T, status := .faulted, faultKind := .invalidPcError, faultInfo := .address T })

/-- 44_move.md R103, R107: a Move whose low 16 bits are 256*src + dst copies x[src] into x[dst] and advances; every other
register, and all else, keeps its value. That bits 63:16 are ignored is the spec's own choice (spec: D9; model: entry
17). -/
def Obligations.MoveCopiesARegister : Prop :=
  ∀ (src dst : RegId) (n : Word) (s : State), n.toNat % 65536 = 256 * src.toByte.toNat + dst.toByte.toNat →
    ∃ t, exec (.move n) s = .next t ∧ (∀ r, t.readReg r = if r = dst then s.readReg src else s.readReg r) ∧
      t = { s with regs := t.regs, pc := s.pc + 1 }

/-- 44_move.md R105: Move(src, dst) followed by reading dst returns the prior value of src; an id outside 0 to 5 is
fatal. -/
def Obligations.MoveThenReadReturnsTheSource : Prop :=
  (∀ (src dst : RegId) (s : State), ∃ t,
    exec (.move (BitVec.ofNat 64 (256 * src.toByte.toNat + dst.toByte.toNat))) s = .next t ∧
      t.readReg dst = s.readReg src) ∧
  ∀ (src dst : Nat) (s : State), src < 256 → dst < 256 → 5 < src ∨ 5 < dst →
    ∃ t, exec (.move (BitVec.ofNat 64 (256 * src + dst))) s = .next t ∧ t.status = .faulted ∧
      t.faultKind = .invalidRegisterError ∧ ∀ u, step t ≠ .next u

/-- 44_move.md R104: which id a faulting Move reports, and that it changes nothing else: the source id first, and the
destination id only when the source is valid (spec: D10; D9 for bits 63:16). -/
def Obligations.MoveWithAnInvalidIdFaults : Prop :=
  ∀ (n : Word) (s : State),
    (6 ≤ n.toNat / 256 % 256 → exec (.move n) s = .next { s with
      status := .faulted
      faultKind := .invalidRegisterError
      faultInfo := .register (BitVec.ofNat 8 (n.toNat / 256 % 256)) }) ∧
    (n.toNat / 256 % 256 ≤ 5 → 6 ≤ n.toNat % 256 → exec (.move n) s = .next { s with
      status := .faulted
      faultKind := .invalidRegisterError
      faultInfo := .register (BitVec.ofNat 8 (n.toNat % 256)) })

/-- 45_exit_invalid.md R108: Exit ends the run with success; `pc` and all else keep their values (spec: D25). -/
def Obligations.ExitEndsTheRunWell : Prop :=
  ∀ (n : Word) (s : State), exec (.exit n) s = .next { s with status := .exited }

/-- 45_exit_invalid.md R108, 50_fetch_execute.md R130: Exit is the only way a run ends in success. -/
def Obligations.OnlyExitEndsARunWell : Prop :=
  ∀ (s t : State), s.status = .running → step s = .next t → t.status = .exited →
    ∃ d n, s.program[s.pc.toNat]? = some d ∧ decode d = .exit n ∧ t = { s with status := .exited }

/-- 45_exit_invalid.md R109: a program that is the ten-repetition push-symbol opcode with an empty operand field, loaded
and run from reset, exits with success at its first step and does not touch the stack. -/
def Obligations.ExitAloneExitsWithSuccess : Prop :=
  ∃ l r t, hostMove (.load (List.replicate 10 (Char.ofNat 0x1F415) ++ [Char.ofNat 0x1F431])) State.reset = .next l ∧
    hostMove .run l = .next r ∧ step r = .next t ∧ t.status = .exited ∧ t.stack = State.reset.stack

/-- 45_exit_invalid.md R110: Invalid always raises InvalidInstruction carrying its own address; the operand makes no
difference and nothing else changes. -/
def Obligations.InvalidAlwaysFaults : Prop :=
  ∀ (n : Word) (s : State), exec (.invalid n) s = .next { s with
    status := .faulted, faultKind := .invalidInstruction, faultInfo := .address s.pc }

/-! ### Faults and frames over all instructions -/

/-- 60_exceptions.md R144: what InvalidInstruction, InvalidRegisterError and InvalidPcError carry: the address of the
Invalid; the offending id, 6 or more; the out-of-range counter, which is N after running off the end and n after
Jump(n). -/
def Obligations.FaultsCarryTheirValue : Prop :=
  (∀ (n : Word) (s : State), ∃ t, exec (.invalid n) s = .next t ∧ t.faultKind = .invalidInstruction ∧
    t.faultInfo = .address s.pc) ∧
  (∀ (n : Word) (s t : State), s.status = .running → exec (.move n) s = .next t → t.status = .faulted →
    ∃ id, t.faultKind = .invalidRegisterError ∧ t.faultInfo = .register id ∧ 6 ≤ id.toNat ∧
      (id.toNat = n.toNat / 256 % 256 ∨ id.toNat = n.toNat % 256)) ∧
  (∀ s : State, s.status = .running → s.program.length ≤ s.pc.toNat → ∃ t, step s = .next t ∧
    t.faultKind = .invalidPcError ∧ t.faultInfo = .address s.pc) ∧
  (∀ s : State, s.status = .running → s.pc.toNat = s.program.length → ∃ t, step s = .next t ∧
    t.faultKind = .invalidPcError ∧ t.faultInfo = .address (BitVec.ofNat 64 s.program.length)) ∧
  ∀ (n : Word) (s : State), s.status = .running → s.program.length ≤ n.toNat → ∃ t u, exec (.jump n) s = .next t ∧
    step t = .next u ∧ u.faultKind = .invalidPcError ∧ u.faultInfo = .address n

/-- 60_exceptions.md R148: the frame of a faulting instruction: `pc`, the store and the output stand as they were for
every instruction, and the registers and the stack too unless it is a Pop or a Print; those leave x[1] to x[5] alone and
only shorten the stack (spec: D21; entry 13). -/
def Obligations.FaultingInstructionFrame : Prop :=
  ∀ (i : Instr) (s t : State), s.status = .running → exec i s = .next t → t.status = .faulted →
    t.pc = s.pc ∧ t.program = s.program ∧ t.out = s.out ∧
    ((∀ n, i ≠ .pop n ∧ i ≠ .print n) → t.regs = s.regs ∧ t.stack = s.stack) ∧
    (∀ r, r ≠ .r0 → t.readReg r = s.readReg r) ∧ ∃ popped, s.stack = popped ++ t.stack

/-- 10_state.md R11: which register an instruction writes: Push, Add, Mul, Jump, Input, Exit and Invalid none, Pop and
Print at most x[0] (spec: D12 for Print), Move at most the register its destination id names. -/
def Obligations.RegistersWrittenByEachKind : Prop :=
  ∀ (i : Instr) (s t : State), exec i s = .next t →
    ((∀ n, i ≠ .pop n ∧ i ≠ .print n ∧ i ≠ .move n) → t.regs = s.regs) ∧
    (∀ n, i = .pop n ∨ i = .print n → ∀ r, r ≠ .r0 → t.readReg r = s.readReg r) ∧
    (∀ n, i = .move n → ∀ r, r.toByte.toNat ≠ n.toNat % 256 → t.readReg r = s.readReg r)

/-- 60_exceptions.md R156: no value a register holds ever causes a fault: two states that differ only in the registers
fault alike, or not at all, under every instruction. -/
def Obligations.RegisterValuesNeverCauseAFault : Prop :=
  ∀ (i : Instr) (s : State) (r : Regs), ∃ t u, exec i s = .next t ∧ exec i { s with regs := r } = .next u ∧
    t.status = u.status ∧ t.faultKind = u.faultKind ∧ t.faultInfo = u.faultInfo ∧ t.pc = u.pc

/-! ### Encoding -/

/-- 30_encoding.md R63, R68, 95_test_vectors.md T-DEC-2, T-DEC-3, T-DEC-4, T-DEC-7, T-DEC-14, T-DEC-22, T-DEC-24: words and
lines written out from the spec's encodings, and what they decode to. -/
def Obligations.WrittenOutEncodingsDecode : Prop :=
  decode 0x00000000000000003#68 = .push 3 ∧ decode 0x10000000000000002#68 = .pop 2 ∧
  decode 0x4FFFFFFFFFFFFFFFF#68 = .print 0xFFFFFFFFFFFFFFFF ∧ decode 0x70000000000000102#68 = .move 258 ∧
  decode 0x90000000000000007#68 = .invalid 7 ∧ decode 0xA0000000000000007#68 = .invalid 7 ∧
  decodeLine params ([0x1F436, 0x1F431, 0x1F415, 0x1F415].map Char.ofNat) = .ok (.pop 2) ∧
  decodeLine params ([0x1F415, 0x1F415, 0x1F431, 0x1F415, 0x1F415, 0x1F415].map Char.ofNat) = .ok (.add 3) ∧
  decodeLine params ([0x1F415, 0x1F436, 0x1F415, 0x1F431, 0x1F415, 0x1F415].map Char.ofNat) = .ok (.mul 2) ∧
  decodeLine params ([0x1F436, 0x1F436, 0x1F436, 0x1F436, 0x1F415, 0x1F431, 0x1F415, 0x1F415, 0x1F415].map Char.ofNat)
    = .ok (.jump 3) ∧
  decodeLine params ([0x1F436, 0x1F436, 0x1F431].map Char.ofNat) = .ok (.invalid 0) ∧
  decodeLine params ([0x1F431, 0x1F431].map Char.ofNat) = .error (.invalidLine ([0x1F431, 0x1F431].map Char.ofNat)) ∧
  decodeLine params ([0x1F415, 0x1F431, 0x1F436].map Char.ofNat) = .error (.invalidImm [Char.ofNat 0x1F436])

/-- 30_encoding.md R63: a decoded instruction word of any Instruction decodes to it; every word with a tag up to 0x9 is
the encoding of what it decodes to; a word with a tag 0xA to 0xF decodes to Invalid with the word's own immediate
(spec: D7). -/
def Obligations.WordDecodeAndEncodeAgree : Prop :=
  (∀ i : Instr, decode (encode i) = i) ∧
  (∀ d : Diw, d.toNat / 2 ^ 64 ≤ 9 → encode (decode d) = d) ∧
  ∀ d : Diw, 10 ≤ d.toNat / 2 ^ 64 → decode d = .invalid (BitVec.ofNat 64 (d.toNat % 2 ^ 64))

/-- 30_encoding.md R54, R56, R68: the line of any Instruction decodes to it, whatever well-formed choice of symbols the
hardware takes (the line of an Invalid is the one with the empty opcode field; model: entry 14). -/
def Obligations.LineDecodeOfEncodeIsIdentity : Prop :=
  ∀ p : Params, p.wellFormed = true → ∀ i : Instr, decodeLine p (encodeLine p i) = .ok i

/-- 30_encoding.md R68: an Instruction of a kind other than Invalid is the decoding of exactly one line. -/
def Obligations.LineOfAnInstructionIsUnique : Prop :=
  ∀ (l : Line) (i : Instr), (∀ n, i ≠ .invalid n) → (decodeLine params l = .ok i ↔ l = encodeLine params i)

/-- 30_encoding.md R62, R64: the Decoder gives an Instruction for exactly the well-formed lines; any other line it
rejects by name: InvalidLine with the line first, then InvalidImm with the operand field, then the refusal of a count
of 2^64 or more (spec: D5, D6). -/
def Obligations.DecoderAcceptsExactlyWellFormedLines : Prop :=
  ∀ l : Line,
    ((∃ i, decodeLine params l = .ok i) ↔ lineWellFormed params l = true) ∧
    (decodeLine params l = .error (.invalidLine l) ↔ lineHasTwoFields params l = false) ∧
    ((∃ f, decodeLine params l = .error (.invalidImm f)) ↔
      lineHasTwoFields params l = true ∧ lineTailIsUnary params l = false) ∧
    (∀ f, decodeLine params l = .error (.invalidImm f) → f = lineTail params l)

/-- 30_encoding.md R52: a line splits into exactly two fields exactly when it holds the delimiter exactly once; any
other line raises InvalidLine carrying the whole line, and a program with such a first line fails to load and never
reaches execution. -/
def Obligations.LineWithoutOneDelimiterFails : Prop :=
  (∀ l : Line, (∃ opf imf, l = opf ++ params.symDelim :: imf ∧ params.symDelim ∉ opf ∧ params.symDelim ∉ imf) ↔
    l.count params.symDelim = 1) ∧
  (∀ l : Line, l.count params.symDelim ≠ 1 ↔ decodeLine params l = .error (.invalidLine l)) ∧
  (∀ l m : Line, decodeLine params l = .error (.invalidLine m) → m = l) ∧
  ∀ (text : List Scalar) (l : Line) (s : State), s.status = .idle ∨ s.status = .loaded →
    (splitLines params text).length < 2 ^ 64 → (splitLines params text)[0]? = some l →
    l.count params.symDelim ≠ 1 →
    ∃ t, hostMove (.load text) s = .next t ∧ t.status = .loadFailed ∧ t.faultKind = .invalidLine ∧
      t.faultInfo = .text l ∧ (∀ u, hostMove .run t ≠ .next u) ∧ ∀ u, step t ≠ .next u

/-- 30_encoding.md R54: an operand field of k repetitions of symbol C gives the immediate k, for k from 0 to 2^64 - 1,
and a field with anything else in it raises InvalidImm carrying the field. -/
def Obligations.ImmediateIsTheCountOfSymbolC : Prop :=
  ∀ opf imf : Line, params.symDelim ∉ opf → params.symDelim ∉ imf →
    (∀ k, imf = List.replicate k params.symC → k < 2 ^ 64 →
      ∃ i, decodeLine params (opf ++ params.symDelim :: imf) = .ok i ∧ i.operand.toNat = k) ∧
    ((∃ c ∈ imf, c ≠ params.symC) →
      decodeLine params (opf ++ params.symDelim :: imf) = .error (.invalidImm imf))

/-- 30_encoding.md R56: the opcode map: the nine patterns, matched on the whole field, and Invalid for anything else;
every kind carries the operand. -/
def Obligations.OpcodeFieldSelectsTheKind : Prop :=
  ∀ (opf : Line) (k : Nat) (n : Word), n.toNat = k → params.symDelim ∉ opf →
    let A := Char.ofNat 0x1F415
    let B := Char.ofNat 0x1F436
    decodeLine params (opf ++ params.symDelim :: List.replicate k params.symC) = .ok (
      if opf = [A] then .push n
      else if opf = [B] then .pop n
      else if opf = [A, A] then .add n
      else if opf = [A, B, A] then .mul n
      else if opf = [B, B, B] then .print n
      else if opf = [B, B, B, B] then .input n
      else if opf = [B, B, B, B, A] then .jump n
      else if opf = [A, B] then .move n
      else if opf = [A, A, A, A, A, A, A, A, A, A] then .exit n
      else .invalid n)

/-- 30_encoding.md R51: k separators give k + 1 lines, no line holds a separator, and the lines joined with one separator
between them are the text again (spec: D4). -/
def Obligations.TextIsItsLinesJoined : Prop :=
  ∀ text : List Scalar,
    (splitLines params text).length = text.count params.lineSep + 1 ∧
    (∀ l ∈ splitLines params text, params.lineSep ∉ l) ∧ joinLines params (splitLines params text) = text

/-! ### The invariant -/

/-- The invariant of the core (`Inv`: N below 2^64, every word of the store one a line produces, the output well-formed
text, the status and the fault record explained by the rest) holds after reset. -/
def Obligations.InvariantHoldsAtReset : Prop :=
  Inv State.reset

/-- Every step keeps the invariant (20_memory.md R33, 30_encoding.md R63, 42_io.md R95, 10_state.md R21, R22,
60_exceptions.md R141, R148; its clause on the stack after a fault: D21, entry 13). -/
def Obligations.StepKeepsTheInvariant : Prop :=
  ∀ s t : State, Inv s → step s = .next t → Inv t

/-- Every move of the host keeps the invariant. -/
def Obligations.HostMovesKeepTheInvariant : Prop :=
  ∀ (m : HostMove) (s t : State), Inv s → hostMove m s = .next t → Inv t

/-- 70_reset_and_hazards.md R171, R174: every run, in whatever use the machine has had, starts from the reset values of
the registers, the program counter, the stack and the output: nothing of an earlier run is left. It follows from
InvariantHoldsAtReset, StepKeepsTheInvariant and HostMovesKeepTheInvariant. -/
def Obligations.EveryRunStartsFresh : Prop :=
  ∀ s t : State, Reachable s → hostMove .run s = .next t →
    (∀ r, t.readReg r = 0) ∧ t.pc = 0 ∧ t.stack = [] ∧ t.out = [] ∧ t.faultKind = .noFault ∧ t.program = s.program

/-- 60_exceptions.md R141, R144, R148, 50_fetch_execute.md R122, R129: what a faulted core in use tells is true: its
record names one of the six run-time faults of this hardware, and an InvalidPcError, an InvalidInstruction or an
EmptyStackError is borne out by the state the core stands in. That the stack is empty after an EmptyStackError rests on
the spec's decision D21, that the effects made before the raise stay (UNVERIFIED, entry 13). It follows from
InvariantHoldsAtReset, StepKeepsTheInvariant and HostMovesKeepTheInvariant. -/
def Obligations.FaultRecordTellsTheTruth : Prop :=
  ∀ s : State, Reachable s → s.status = .faulted →
    (s.faultKind = .invalidPcError ∨ s.faultKind = .invalidInstruction ∨ s.faultKind = .emptyStackError ∨
      s.faultKind = .invalidRegisterError ∨ s.faultKind = .inputNotSupported ∨ s.faultKind = .outputEncodingFault) ∧
    (s.faultKind = .invalidPcError → s.faultInfo = .address s.pc ∧ s.program.length ≤ s.pc.toNat) ∧
    (s.faultKind = .invalidInstruction → s.faultInfo = .address s.pc ∧
      ∃ d n, s.program[s.pc.toNat]? = some d ∧ decode d = .invalid n) ∧
    (s.faultKind = .emptyStackError → s.faultInfo = .nothing ∧ s.stack = [])
end

