-- ==== Sys2Proof/Laws/Decode.lean ====
section
/-! SUPPORT. The laws of the two encodings: the fields of a decoded instruction word, the fields of a line, and the cut
of a text into lines. -/

namespace Sys2Proof

@[simp] theorem ofKind_kind_operand (i : Instr) : Instr.ofKind i.kind i.operand = i := by
  cases i <;> rfl

@[simp] theorem kind_ofKind (k : Kind) (n : Word) : (Instr.ofKind k n).kind = k := by
  cases k <;> rfl

@[simp] theorem operand_ofKind (k : Kind) (n : Word) : (Instr.ofKind k n).operand = n := by
  cases k <;> rfl

/-- The tag field of a word made of a tag and an immediate. -/
theorem diwTag_append (t : BitVec 4) (n : Word) : diwTag (t ++ n) = t := by
  apply BitVec.eq_of_getLsbD_eq
  intro i hi
  have h := BitVec.getLsbD_append (x := t) (y := n) (i := 64 + i)
  simp only [diwTag, BitVec.getLsbD_extractLsb', hi, decide_true, Bool.true_and]
  rw [h]
  simp

/-- The immediate field of a word made of a tag and an immediate. -/
theorem diwImm_append (t : BitVec 4) (n : Word) : diwImm (t ++ n) = n := by
  apply BitVec.eq_of_getLsbD_eq
  intro i hi
  have h := BitVec.getLsbD_append (x := t) (y := n) (i := i)
  simp only [diwImm, BitVec.getLsbD_extractLsb', hi, decide_true, Bool.true_and, Nat.zero_add]
  rw [h]
  simp [hi]

theorem ofTag_tag (k : Kind) : Kind.ofTag k.tag = k := by
  cases k <;> rfl

theorem diwWellFormed_encode (i : Instr) : diwWellFormed (encode i) = true := by
  have h : (encode i).extractLsb' 64 4 = i.kind.tag := diwTag_append _ _
  unfold diwWellFormed
  rw [h]
  cases i <;> rfl

/-! ### Lines -/

/-- The opcode field of a line that is put together from its two fields. -/
theorem opcodeField_mk (p : Params) (opf imf : Line) (h : p.symDelim ∉ opf) :
    opcodeField p (opf ++ p.symDelim :: imf) = opf := by
  induction opf with
  | nil => simp [opcodeField]
  | cons c cs ih =>
    have hc : c ≠ p.symDelim := fun e => h (by simp [e])
    have := ih (fun hm => h (List.mem_cons_of_mem _ hm))
    simp only [opcodeField] at this ⊢
    simp [hc, this]

/-- The operand field of a line that is put together from its two fields. -/
theorem operandField_mk (p : Params) (opf imf : Line) (h : p.symDelim ∉ opf) :
    operandField p (opf ++ p.symDelim :: imf) = imf := by
  induction opf with
  | nil => simp [operandField]
  | cons c cs ih =>
    have hc : c ≠ p.symDelim := fun e => h (by simp [e])
    have := ih (fun hm => h (List.mem_cons_of_mem _ hm))
    simp only [operandField] at this ⊢
    simp [hc, this]

/-- A line put together from two fields without the delimiter splits. -/
theorem lineSplits_mk (p : Params) (opf imf : Line) (h : p.symDelim ∉ opf) (h' : p.symDelim ∉ imf) :
    lineSplits p (opf ++ p.symDelim :: imf) = true := by
  simp [lineSplits, List.count_eq_zero_of_not_mem h, List.count_eq_zero_of_not_mem h']

/-- A line that splits is its two fields with the delimiter between them, and neither field holds the delimiter. -/
theorem line_of_splits (p : Params) (l : Line) (h : lineSplits p l = true) :
    l = opcodeField p l ++ p.symDelim :: operandField p l ∧ p.symDelim ∉ opcodeField p l ∧
      p.symDelim ∉ operandField p l := by
  have hmem : p.symDelim ∈ l := by
    apply List.count_pos_iff.mp
    have : l.count p.symDelim = 1 := by simpa [lineSplits] using h
    omega
  obtain ⟨opf, imf, rfl, hnot⟩ := List.eq_append_cons_of_mem hmem
  rw [opcodeField_mk p opf imf hnot, operandField_mk p opf imf hnot]
  refine ⟨rfl, hnot, ?_⟩
  intro hm
  have hone : (opf ++ p.symDelim :: imf).count p.symDelim = 1 := by simpa [lineSplits] using h
  have hpos := List.count_pos_iff.mpr hm
  rw [List.count_append, List.count_cons_self] at hone
  omega

/-- A pattern symbol is not the delimiter, so no kind's opcode field holds it. -/
theorem delim_not_mem_field (p : Params) (hp : p.wellFormed = true) (k : Kind) : p.symDelim ∉ k.field p := by
  have h : p.symDelim ≠ p.symA ∧ p.symDelim ≠ p.symB := by
    simp [Params.wellFormed, Params.delimIsSentinel] at hp
    exact ⟨hp.1.1.1.1.1, hp.1.1.1.1.2⟩
  intro hm
  obtain ⟨a, -, ha⟩ := List.mem_map.mp hm
  cases a
  · exact h.1 ha.symm
  · exact h.2 ha.symm

/-- The opcode field a kind is written with is read back as that kind. -/
theorem kindOfField_field (p : Params) (hp : p.wellFormed = true) (k : Kind) : kindOfField p (k.field p) = k := by
  have h : p.symA ≠ p.symB := by
    simp [Params.wellFormed, Params.opcodeSymbolsDiffer] at hp
    exact hp.1.2
  have h' : (p.symA == p.symB) = false := by simpa using h
  cases k <;>
    simp [kindOfField, patternKinds, Kind.field, Kind.pattern, Letter.scalar, List.find?, h']

/-- An opcode field read as a kind other than Invalid is that kind's pattern. -/
theorem field_of_kindOfField (p : Params) (f : Line) (h : kindOfField p f ≠ .invalid) :
    f = (kindOfField p f).field p := by
  unfold kindOfField at h ⊢
  cases hf : patternKinds.find? (fun k => k.field p == f) with
  | none => simp [hf] at h
  | some k =>
    have h := List.find?_some hf
    exact (eq_of_beq h).symm

/-- On a line with two fields, what stands after the first delimiter is what stands after the last. -/
theorem operandField_eq_lineTail (p : Params) (l : Line) (h : lineHasTwoFields p l = true) :
    operandField p l = lineTail p l := by
  obtain ⟨e, -, hnot⟩ := line_of_splits p l h
  generalize operandField p l = imf at *
  generalize opcodeField p l = opf at *
  subst e
  have hr : (opf ++ p.symDelim :: imf).reverse = imf.reverse ++ p.symDelim :: opf.reverse := by simp
  rw [lineTail, hr, List.takeWhile_append_of_pos]
  · simp
  · intro c hc
    have : c ≠ p.symDelim := fun e => hnot (by simpa [e] using hc)
    simpa using this

/-- Lines decode to Instructions exactly when each of them does, in order. -/
theorem decodeLines_ok_iff (p : Params) (ls : List Line) (is : List Instr) :
    decodeLines p ls = .ok is ↔ ls.map (decodeLine p) = is.map Except.ok := by
  induction ls generalizing is with
  | nil => cases is <;> simp [decodeLines]
  | cons l ls ih =>
    rw [decodeLines]
    cases is with
    | nil => cases decodeLine p l <;> (try cases decodeLines p ls) <;> simp
    | cons j js =>
      have := ih js
      cases hl : decodeLine p l with
      | error e => simp [hl]
      | ok i =>
        cases h : decodeLines p ls with
        | error e => simp [h] at this; simp [hl, this]
        | ok js' =>
          simp only [h, Except.ok.injEq] at this
          simp only [List.map_cons, hl, List.cons.injEq, Except.ok.injEq, this]

/-- The first line that fails, after lines that decode, decides the error. -/
theorem decodeLines_error (p : Params) (good : List Line) (bad : Line) (rest : List Line) (e : DecodeError)
    (hg : ∀ l ∈ good, ∃ i, decodeLine p l = .ok i) (hb : decodeLine p bad = .error e) :
    decodeLines p (good ++ bad :: rest) = .error e := by
  induction good with
  | nil => simp [decodeLines, hb]
  | cons l ls ih =>
    obtain ⟨i, hi⟩ := hg l (by simp)
    simp [decodeLines, hi, ih (fun x hx => hg x (by simp [hx]))]

/-! ### Text -/

theorem splitLines_ne_nil (p : Params) (text : List Scalar) : splitLines p text ≠ [] := by
  cases text with
  | nil => simp [splitLines]
  | cons c cs =>
    rw [splitLines]
    split
    · simp
    · split <;> simp

/-- A line without a separator, and then a separator, gives that line and then the lines of what follows. -/
theorem splitLines_line_sep (p : Params) (l : Line) (rest : List Scalar) (h : p.lineSep ∉ l) :
    splitLines p (l ++ p.lineSep :: rest) = l :: splitLines p rest := by
  induction l with
  | nil => simp [splitLines]
  | cons c cs ih =>
    have hc : c ≠ p.lineSep := fun e => h (by simp [e])
    rw [List.cons_append, splitLines, if_neg hc, ih (fun hm => h (List.mem_cons_of_mem _ hm))]

/-- A text without a separator is one line. -/
theorem splitLines_line (p : Params) (l : Line) (h : p.lineSep ∉ l) : splitLines p l = [l] := by
  induction l with
  | nil => rfl
  | cons c cs ih =>
    have hc : c ≠ p.lineSep := fun e => h (by simp [e])
    rw [splitLines, if_neg hc, ih (fun hm => h (List.mem_cons_of_mem _ hm))]

/-- Lines without a separator in them, joined and cut again. -/
theorem splitLines_joinLines (p : Params) (ls : List Line) (hne : ls ≠ []) (h : ∀ l ∈ ls, p.lineSep ∉ l) :
    splitLines p (joinLines p ls) = ls := by
  induction ls with
  | nil => exact absurd rfl hne
  | cons l ls ih =>
    cases ls with
    | nil => exact splitLines_line p l (h l (by simp))
    | cons m ms =>
      rw [joinLines, splitLines_line_sep p l _ (h l (by simp)), ih (by simp)]
      exact fun x hx => h x (List.mem_cons_of_mem _ hx)

/-- The line of an Instruction holds no separator. -/
theorem lineSep_not_mem_encodeLine (p : Params) (hp : p.wellFormed = true) (i : Instr) :
    p.lineSep ∉ encodeLine p i := by
  have h : p.symA ≠ p.lineSep ∧ p.symB ≠ p.lineSep ∧ p.symC ≠ p.lineSep ∧ p.symDelim ≠ p.lineSep := by
    simp [Params.wellFormed, Params.noSymbolIsLineSep] at hp
    exact ⟨hp.2.1.1.1, hp.2.1.1.2, hp.2.1.2, hp.2.2⟩
  intro hm
  rw [encodeLine, List.mem_append, List.mem_cons, List.mem_replicate] at hm
  rcases hm with hm | hm | hm
  · obtain ⟨a, -, ha⟩ := List.mem_map.mp hm
    cases a
    · exact h.1 ha
    · exact h.2.1 ha
  · exact h.2.2.2 hm.symm
  · exact h.2.2.1 hm.2.symm

end Sys2Proof
end

