-- ==== Sys2Proof/Laws/State.lean ====
section
/-! SUPPORT. One lemma per field per named update of the state, so that no later proof unfolds a record update, and the
read-after-write laws of the register file. -/

namespace Sys2Proof.Machine

/-! ### Registers -/

@[simp] theorem Regs.read_write_same (x : Regs) (i : RegId) (v : Word) : (x.write i v).read i = v := by
  cases i <;> rfl

theorem Regs.read_write_other (x : Regs) {i j : RegId} (v : Word) (h : j ≠ i) : (x.write i v).read j = x.read j := by
  cases i <;> cases j <;> first | rfl | exact absurd rfl h

@[simp] theorem Regs.write_read_same (x : Regs) (i : RegId) : x.write i (x.read i) = x := by
  cases i <;> rfl

@[simp] theorem readReg_def (s : State) (i : RegId) : s.readReg i = s.regs.read i := rfl
@[simp] theorem read_r0 (x : Regs) : x.read .r0 = x.x0 := rfl
@[simp] theorem read_r1 (x : Regs) : x.read .r1 = x.x1 := rfl

@[simp] theorem writeReg_regs (s : State) (i : RegId) (v : Word) : (s.writeReg i v).regs = s.regs.write i v := rfl
@[simp] theorem writeReg_pc (s : State) (i : RegId) (v : Word) : (s.writeReg i v).pc = s.pc := rfl
@[simp] theorem writeReg_stack (s : State) (i : RegId) (v : Word) : (s.writeReg i v).stack = s.stack := rfl
@[simp] theorem writeReg_program (s : State) (i : RegId) (v : Word) : (s.writeReg i v).program = s.program := rfl
@[simp] theorem writeReg_out (s : State) (i : RegId) (v : Word) : (s.writeReg i v).out = s.out := rfl
@[simp] theorem writeReg_status (s : State) (i : RegId) (v : Word) : (s.writeReg i v).status = s.status := rfl
@[simp] theorem writeReg_faultKind (s : State) (i : RegId) (v : Word) : (s.writeReg i v).faultKind = s.faultKind := rfl
@[simp] theorem writeReg_faultInfo (s : State) (i : RegId) (v : Word) : (s.writeReg i v).faultInfo = s.faultInfo := rfl

/-! ### Program counter -/

@[simp] theorem setPc_regs (s : State) (t : Word) : (s.setPc t).regs = s.regs := rfl
@[simp] theorem setPc_pc (s : State) (t : Word) : (s.setPc t).pc = t := rfl
@[simp] theorem setPc_stack (s : State) (t : Word) : (s.setPc t).stack = s.stack := rfl
@[simp] theorem setPc_program (s : State) (t : Word) : (s.setPc t).program = s.program := rfl
@[simp] theorem setPc_out (s : State) (t : Word) : (s.setPc t).out = s.out := rfl
@[simp] theorem setPc_status (s : State) (t : Word) : (s.setPc t).status = s.status := rfl
@[simp] theorem setPc_faultKind (s : State) (t : Word) : (s.setPc t).faultKind = s.faultKind := rfl
@[simp] theorem setPc_faultInfo (s : State) (t : Word) : (s.setPc t).faultInfo = s.faultInfo := rfl

@[simp] theorem advance_regs (s : State) : s.advance.regs = s.regs := rfl
@[simp] theorem advance_pc (s : State) : s.advance.pc = s.pc + 1 := rfl
@[simp] theorem advance_stack (s : State) : s.advance.stack = s.stack := rfl
@[simp] theorem advance_program (s : State) : s.advance.program = s.program := rfl
@[simp] theorem advance_out (s : State) : s.advance.out = s.out := rfl
@[simp] theorem advance_status (s : State) : s.advance.status = s.status := rfl
@[simp] theorem advance_faultKind (s : State) : s.advance.faultKind = s.faultKind := rfl
@[simp] theorem advance_faultInfo (s : State) : s.advance.faultInfo = s.faultInfo := rfl

/-! ### Stack push and output write -/

@[simp] theorem stackPush_regs (s : State) (v : Word) : (s.stackPush v).regs = s.regs := rfl
@[simp] theorem stackPush_pc (s : State) (v : Word) : (s.stackPush v).pc = s.pc := rfl
@[simp] theorem stackPush_stack (s : State) (v : Word) : (s.stackPush v).stack = v :: s.stack := rfl
@[simp] theorem stackPush_program (s : State) (v : Word) : (s.stackPush v).program = s.program := rfl
@[simp] theorem stackPush_out (s : State) (v : Word) : (s.stackPush v).out = s.out := rfl
@[simp] theorem stackPush_status (s : State) (v : Word) : (s.stackPush v).status = s.status := rfl
@[simp] theorem stackPush_faultKind (s : State) (v : Word) : (s.stackPush v).faultKind = s.faultKind := rfl
@[simp] theorem stackPush_faultInfo (s : State) (v : Word) : (s.stackPush v).faultInfo = s.faultInfo := rfl

@[simp] theorem outWrite_regs (s : State) (bs : List Byte) : (s.outWrite bs).regs = s.regs := rfl
@[simp] theorem outWrite_pc (s : State) (bs : List Byte) : (s.outWrite bs).pc = s.pc := rfl
@[simp] theorem outWrite_stack (s : State) (bs : List Byte) : (s.outWrite bs).stack = s.stack := rfl
@[simp] theorem outWrite_program (s : State) (bs : List Byte) : (s.outWrite bs).program = s.program := rfl
@[simp] theorem outWrite_out (s : State) (bs : List Byte) : (s.outWrite bs).out = s.out ++ bs := rfl
@[simp] theorem outWrite_status (s : State) (bs : List Byte) : (s.outWrite bs).status = s.status := rfl
@[simp] theorem outWrite_faultKind (s : State) (bs : List Byte) : (s.outWrite bs).faultKind = s.faultKind := rfl
@[simp] theorem outWrite_faultInfo (s : State) (bs : List Byte) : (s.outWrite bs).faultInfo = s.faultInfo := rfl

/-! ### Taking a fault, and stopping -/

@[simp] theorem raise_regs (k : FaultKind) (f : FaultInfo) (s : State) : (raise k f s).regs = s.regs := rfl
@[simp] theorem raise_pc (k : FaultKind) (f : FaultInfo) (s : State) : (raise k f s).pc = s.pc := rfl
@[simp] theorem raise_stack (k : FaultKind) (f : FaultInfo) (s : State) : (raise k f s).stack = s.stack := rfl
@[simp] theorem raise_program (k : FaultKind) (f : FaultInfo) (s : State) : (raise k f s).program = s.program := rfl
@[simp] theorem raise_out (k : FaultKind) (f : FaultInfo) (s : State) : (raise k f s).out = s.out := rfl
@[simp] theorem raise_status (k : FaultKind) (f : FaultInfo) (s : State) :
    (raise k f s).status = k.faultClass.status s.status := rfl
@[simp] theorem raise_faultKind (k : FaultKind) (f : FaultInfo) (s : State) : (raise k f s).faultKind = k := rfl
@[simp] theorem raise_faultInfo (k : FaultKind) (f : FaultInfo) (s : State) : (raise k f s).faultInfo = f := rfl

@[simp] theorem haltOk_regs (s : State) : (haltOk s).regs = s.regs := rfl
@[simp] theorem haltOk_pc (s : State) : (haltOk s).pc = s.pc := rfl
@[simp] theorem haltOk_stack (s : State) : (haltOk s).stack = s.stack := rfl
@[simp] theorem haltOk_program (s : State) : (haltOk s).program = s.program := rfl
@[simp] theorem haltOk_out (s : State) : (haltOk s).out = s.out := rfl
@[simp] theorem haltOk_status (s : State) : (haltOk s).status = .exited := rfl
@[simp] theorem haltOk_faultKind (s : State) : (haltOk s).faultKind = s.faultKind := rfl
@[simp] theorem haltOk_faultInfo (s : State) : (haltOk s).faultInfo = s.faultInfo := rfl

end Sys2Proof.Machine
end

