-- ==== Sys2Proof/Laws/Ops.lean ====
section
/-! SUPPORT. For each shared operation, one lemma that says everything it can do; proofs cite these instead of unfolding
the operation. -/

namespace Sys2Proof.Machine

/-- What a register id decodes to: ids 0 to 5 name their register, and nothing else does. -/
theorem ofByte_eq_some_iff (id : Byte) (r : RegId) : RegId.ofByte id = some r ↔ id = r.toByte := by
  revert id
  cases r <;> decide

theorem ofByte_eq_none_iff (id : Byte) : RegId.ofByte id = none ↔ 6 ≤ id.toNat := by
  revert id
  decide

theorem moveSrc_toNat (n : Word) : (moveSrc n).toNat = n.toNat / 256 % 256 := by
  simp [moveSrc, Nat.shiftRight_eq_div_pow]

theorem moveDst_toNat (n : Word) : (moveDst n).toNat = n.toNat % 256 := by
  simp [moveDst]

theorem sumPasses64Bits_iff (a b : Word) : sumPasses64Bits a b = true ↔ 2 ^ 64 ≤ a.toNat + b.toNat :=
  decide_eq_true_iff

theorem stackIsFull_iff {p : Params} {c : Nat} (hp : p.stackCapacity = some c) (s : State) :
    stackIsFull p s = true ↔ c ≤ s.stack.length := by
  rw [stackIsFull, hp]
  exact decide_eq_true_iff

/-- The scratch register after popping `vs` into it: the last of them, or what it held if there is none. -/
def scratchAfter (toScratch : Bool) (vs : List Word) (x : Regs) : Regs :=
  if toScratch then x.write .r0 (vs.getLast?.getD x.x0) else x

theorem scratchAfter_nil (b : Bool) (x : Regs) : scratchAfter b [] x = x := by
  cases b <;> rfl

theorem scratchAfter_cons (b : Bool) (v : Word) (vs : List Word) (x : Regs) :
    scratchAfter b vs (if b then x.write .r0 v else x) = scratchAfter b (v :: vs) x := by
  cases b
  · rfl
  · cases vs with
    | nil => rfl
    | cons w ws =>
      obtain ⟨u, hu⟩ := Option.isSome_iff_exists.mp (List.getLast?_isSome.mpr (List.cons_ne_nil w ws))
      have hu' : (v :: w :: ws).getLast? = some u := by rw [List.getLast?_cons_cons]; exact hu
      simp [scratchAfter, hu, hu', Regs.write]

/-- Everything `popTimes` can do: with enough elements the first `k` values of the stack are popped, the top first;
with fewer, all of them are popped and the stack is found empty. -/
theorem popTimes_spec (b : Bool) (k : Nat) (s : State) :
    popTimes b k s =
      if k ≤ s.stack.length then
        .all (s.stack.take k) { s with stack := s.stack.drop k, regs := scratchAfter b (s.stack.take k) s.regs }
      else .empty { s with stack := [], regs := scratchAfter b s.stack s.regs } := by
  induction k generalizing s with
  | zero => simp [popTimes, scratchAfter_nil]
  | succ k ih =>
    obtain ⟨x, pc, stack, prog, out, st, fk, fi⟩ := s
    cases stack with
    | nil => simp [popTimes, State.stackPop, scratchAfter_nil]
    | cons v rest =>
      have hw : (if b = true then (State.mk x pc rest prog out st fk fi).writeReg .r0 v
          else State.mk x pc rest prog out st fk fi) =
          State.mk (if b then x.write .r0 v else x) pc rest prog out st fk fi := by
        cases b <;> rfl
      simp only [popTimes, State.stackPop, hw, ih, List.length_cons, Nat.add_le_add_iff_right,
        List.take_succ_cons, List.drop_succ_cons]
      split <;> simp [Popped.after, scratchAfter_cons]

/-- Everything `pushAndAdvance` can do on an unbounded stack. -/
theorem pushAndAdvance_unbounded {p : Params} (hp : p.stackCapacity = none) (v : Word) (s : State) :
    pushAndAdvance p v s = .next { s with stack := v :: s.stack, pc := s.pc + 1 } := by
  simp [pushAndAdvance, stackIsFull, hp]
  rfl

/-- A word written into the store is the word read back at its address. -/
theorem storeWithWord_read (program : List Diw) (a : Nat) (d : Diw) : (storeWithWord program a d)[a]? = some d := by
  have h : (program.take a ++ List.replicate (a - program.length) (encode (.invalid 0))).length = a := by
    simp
    omega
  rw [storeWithWord, List.getElem?_append_right (by omega), h]
  simp

end Sys2Proof.Machine
end

