-- ==== Sys2Proof/Laws/Text.lean ====
section
/-! SUPPORT. The laws of the text check. -/

namespace Sys2Proof.Machine

/-- Scanning what completes the sequence in hand and then more is scanning the two one after the other. -/
theorem scanText_append (rows : List TextRow) (owed : List ByteRange) (a b : List Byte)
    (h : scanText rows owed a = true) : scanText rows owed (a ++ b) = scanText rows [] b := by
  induction a generalizing owed with
  | nil => cases owed <;> simp_all [scanText]
  | cons x xs ih =>
    cases owed with
    | nil =>
      simp only [scanText, List.cons_append] at h ⊢
      split at h
      · cases h
      · exact ih _ h
    | cons r owed =>
      simp only [scanText, List.cons_append, Bool.and_eq_true] at h ⊢
      simp [h.1, ih owed h.2]

theorem wellFormedText_nil (e : TextEncoding) : wellFormedText e [] = true := rfl

/-- Well-formed text followed by well-formed text is well-formed text. -/
theorem wellFormedText_append (e : TextEncoding) {a b : List Byte} (ha : wellFormedText e a = true)
    (hb : wellFormedText e b = true) : wellFormedText e (a ++ b) = true := by
  rw [wellFormedText, scanText_append _ _ _ _ ha]
  exact hb

end Sys2Proof.Machine
end

