-- ==== Sys2Proof/Laws/Exec.lean ====
section
/-! SUPPORT. One equation per meaning, in terms of the shared operations' own lemmas, so that a proof about `exec` cites
an equation and unfolds nothing below it. -/

namespace Sys2Proof.Machine

theorem execPush_eq (n : Word) (s : State) : execPush n s = .next (s.stackPush n).advance := rfl

theorem execAdd_eq (n : Word) (s : State) : execAdd n s = .next (s.stackPush (s.readReg .r1 + n)).advance := rfl

theorem execMul_eq (n : Word) (s : State) : execMul n s = .next (s.stackPush (s.readReg .r1 * n)).advance := rfl

theorem execInput_eq (n : Word) (s : State) : execInput n s = .next (raise .inputNotSupported .nothing s) := rfl

theorem execJump_eq (n : Word) (s : State) : execJump n s = .next (s.setPc n) := rfl

theorem execExit_eq (n : Word) (s : State) : execExit n s = .next (haltOk s) := rfl

theorem execInvalid_eq (n : Word) (s : State) :
    execInvalid n s = .next (raise .invalidInstruction (.address s.pc) s) := rfl

/-- The state after `k` pops: the stack without its first `k` elements, the last of them in the scratch register. -/
def State.popped (toScratch : Bool) (k : Nat) (s : State) : State :=
  { s with stack := s.stack.drop k, regs := scratchAfter toScratch (s.stack.take k) s.regs }

@[simp] theorem popped_regs (b : Bool) (k : Nat) (s : State) :
    (s.popped b k).regs = scratchAfter b (s.stack.take k) s.regs := rfl
@[simp] theorem popped_pc (b : Bool) (k : Nat) (s : State) : (s.popped b k).pc = s.pc := rfl
@[simp] theorem popped_stack (b : Bool) (k : Nat) (s : State) : (s.popped b k).stack = s.stack.drop k := rfl
@[simp] theorem popped_program (b : Bool) (k : Nat) (s : State) : (s.popped b k).program = s.program := rfl
@[simp] theorem popped_out (b : Bool) (k : Nat) (s : State) : (s.popped b k).out = s.out := rfl
@[simp] theorem popped_status (b : Bool) (k : Nat) (s : State) : (s.popped b k).status = s.status := rfl
@[simp] theorem popped_faultKind (b : Bool) (k : Nat) (s : State) : (s.popped b k).faultKind = s.faultKind := rfl
@[simp] theorem popped_faultInfo (b : Bool) (k : Nat) (s : State) : (s.popped b k).faultInfo = s.faultInfo := rfl

/-- Popping leaves `x[1]` to `x[5]` alone. -/
theorem read_scratchAfter (b : Bool) (vs : List Word) (x : Regs) {r : RegId} (h : r ≠ .r0) :
    (scratchAfter b vs x).read r = x.read r := by
  cases b
  · rfl
  · exact Regs.read_write_other _ _ h

/-- Popping past the bottom is popping the whole depth. -/
theorem popTimes_eq (b : Bool) (k : Nat) (s : State) :
    popTimes b k s =
      if k ≤ s.stack.length then .all (s.stack.take k) (s.popped b k) else .empty (s.popped b s.stack.length) := by
  simp [popTimes_spec, State.popped]

theorem execPop_eq (n : Word) (s : State) :
    execPop n s =
      if n.toNat ≤ s.stack.length then .next (s.popped true n.toNat).advance
      else .next (raise .emptyStackError .nothing (s.popped true s.stack.length)) := by
  by_cases h : n.toNat ≤ s.stack.length <;> simp [execPop, popTimes_eq, repeatCount, h]

theorem printWith_eq (p : Params) (n : Word) (s : State) :
    printWith p n s =
      if n.toNat ≤ s.stack.length then
        if wellFormedText p.textEncoding ((s.stack.take n.toNat).map lowByte) then
          .next ((s.popped p.printWritesScratch n.toNat).outWrite ((s.stack.take n.toNat).map lowByte)).advance
        else .next (raise .outputEncodingFault .nothing (s.popped p.printWritesScratch n.toNat))
      else .next (raise .emptyStackError .nothing (s.popped p.printWritesScratch s.stack.length)) := by
  by_cases h : n.toNat ≤ s.stack.length <;> simp [printWith, popTimes_eq, repeatCount, h]

/-- Everything Move can do: fault on the source id, fault on the destination id, or copy. -/
theorem execMove_cases (n : Word) (s : State) :
    (6 ≤ (moveSrc n).toNat ∧ execMove n s = .next (raise .invalidRegisterError (.register (moveSrc n)) s)) ∨
    (∃ src : RegId, moveSrc n = src.toByte ∧ 6 ≤ (moveDst n).toNat ∧
      execMove n s = .next (raise .invalidRegisterError (.register (moveDst n)) s)) ∨
    ∃ src dst : RegId, moveSrc n = src.toByte ∧ moveDst n = dst.toByte ∧
      execMove n s = .next (s.writeReg dst (s.readReg src)).advance := by
  cases hs : RegId.ofByte (moveSrc n) with
  | none => exact .inl ⟨(ofByte_eq_none_iff _).mp hs, by simp [execMove, moveWith, Params.dictc, hs]⟩
  | some src =>
    have hs' := (ofByte_eq_some_iff _ _).mp hs
    cases hd : RegId.ofByte (moveDst n) with
    | none =>
      exact .inr (.inl ⟨src, hs', (ofByte_eq_none_iff _).mp hd, by simp [execMove, moveWith, Params.dictc, hs, hd]⟩)
    | some dst =>
      exact .inr (.inr ⟨src, dst, hs', (ofByte_eq_some_iff _ _).mp hd, by
        simp [execMove, moveWith, Params.dictc, hs, hd]⟩)

/-- A step of a RUNNING core inside the program is `exec` of what it fetches. -/
theorem step_fetched {s : State} {d : Diw} (h : s.status = .running) (hd : s.progRead s.pc = some d) :
    step s = exec (decode d) s := by
  simp [step, stepByStatus, h, loopPass, hd]

/-- A step of a RUNNING core outside the program takes the fetch fault. -/
theorem step_outside {s : State} (h : s.status = .running) (hd : s.progRead s.pc = none) :
    step s = .next (raise .invalidPcError (.address s.pc) s) := by
  simp [step, stepByStatus, h, loopPass, hd]

/-- Only a RUNNING core has a step, and that step is one of the two above. -/
theorem step_cases {s t : State} (h : step s = .next t) :
    s.status = .running ∧
      ((s.progRead s.pc = none ∧ t = raise .invalidPcError (.address s.pc) s) ∨
        ∃ d, s.progRead s.pc = some d ∧ exec (decode d) s = .next t) := by
  have hr : s.status = .running := by
    cases hs : s.status <;> simp [step, stepByStatus, hs] at h
    rfl
  refine ⟨hr, ?_⟩
  cases hd : s.progRead s.pc with
  | none =>
    rw [step_outside hr hd] at h
    exact .inl ⟨rfl, (Host.Outcome.next.inj h).symm⟩
  | some d => exact .inr ⟨d, rfl, by rw [← step_fetched hr hd, h]⟩

/-- A run that goes on to a next state made its first step. -/
theorem run_succ_next {k : Nat} {s t : State} (h : Host.Core.run core (k + 1) s = .next t) :
    ∃ u, step s = .next u ∧ Host.Core.run core k u = .next t := by
  simp only [Host.Core.run] at h
  cases hs : step s with
  | next u => exact ⟨u, rfl, by rw [show core.step s = _ from hs] at h; exact h⟩
  | fault r => rw [show core.step s = _ from hs] at h; cases h
  | refused r => rw [show core.step s = _ from hs] at h; cases h

end Sys2Proof.Machine
end

