-- ==== Sys2Proof/Laws/Host.lean ====
section
/-! SUPPORT. What the host's moves can do. -/

namespace Sys2Proof.Machine

theorem hostMayCommand_iff (s : State) : hostMayCommand s = true ↔ s.status = .idle ∨ s.status = .loaded := by
  simp [hostMayCommand]

/-- On this hardware only 2^64 lines are too many. -/
theorem programIsTooLong_iff (n : Nat) : programIsTooLong params n = true ↔ 2 ^ 64 ≤ n := by
  show (decide (2 ^ 64 ≤ n) || false) = true ↔ _
  rw [Bool.or_false]
  exact decide_eq_true_iff

/-- Everything a load that answers a next state can have done. -/
theorem hostLoad_cases {text : List Scalar} {s t : State} (h : hostLoad text s = .next t) :
    (s.status = .idle ∨ s.status = .loaded) ∧ (splitLines params text).length < 2 ^ 64 ∧
      ((∃ is, decodeText params text = .ok is ∧ t = { s with program := is.map encode, status := .loaded }) ∨
        (∃ l, decodeText params text = .error (.invalidLine l) ∧ t = loadFailure .invalidLine l s) ∨
        ∃ f, decodeText params text = .error (.invalidImm f) ∧ t = loadFailure .invalidImm f s) := by
  rw [hostLoad, loadWith] at h
  split at h
  · rename_i hm
    split at h
    · cases h
    · rename_i hp
      rw [programIsTooLong_iff] at hp
      refine ⟨(hostMayCommand_iff s).mp hm, by omega, ?_⟩
      split at h
      · rename_i is e
        exact .inl ⟨is, e, (Host.Outcome.next.inj h).symm⟩
      · rename_i l e
        exact .inr (.inl ⟨l, e, (Host.Outcome.next.inj h).symm⟩)
      · rename_i f e
        exact .inr (.inr ⟨f, e, (Host.Outcome.next.inj h).symm⟩)
      · cases h
  · cases h

/-- A run command that answers a next state. -/
theorem hostRun_cases {s t : State} (h : hostRun s = .next t) :
    (s.status = .idle ∨ s.status = .loaded) ∧ t = { s with status := .running } := by
  rw [hostRun] at h
  split at h
  · rename_i hm
    exact ⟨(hostMayCommand_iff s).mp hm, (Host.Outcome.next.inj h).symm⟩
  · cases h

end Sys2Proof.Machine
end

