-- ==== Sys2Proof/Laws/PerInstr.lean ====
section
/-! SUPPORT. The statements made per instruction, as syntax: where the fields of each instruction's decoded instruction
word stand (30_encoding.md R63). -/

namespace Sys2Proof.Laws

/-- `tag` is in bits 67:64 and `imm` in bits 63:0 of the word. -/
def WordFields.Statement (i : Instr) : Prop :=
  diwTag (encode i) = i.kind.tag ∧ diwImm (encode i) = i.operand

theorem WordFields.push (n : Word) : WordFields.Statement (.push n) := ⟨diwTag_append _ _, diwImm_append _ _⟩
theorem WordFields.pop (n : Word) : WordFields.Statement (.pop n) := ⟨diwTag_append _ _, diwImm_append _ _⟩
theorem WordFields.add (n : Word) : WordFields.Statement (.add n) := ⟨diwTag_append _ _, diwImm_append _ _⟩
theorem WordFields.mul (n : Word) : WordFields.Statement (.mul n) := ⟨diwTag_append _ _, diwImm_append _ _⟩
theorem WordFields.print (n : Word) : WordFields.Statement (.print n) := ⟨diwTag_append _ _, diwImm_append _ _⟩
theorem WordFields.input (n : Word) : WordFields.Statement (.input n) := ⟨diwTag_append _ _, diwImm_append _ _⟩
theorem WordFields.jump (n : Word) : WordFields.Statement (.jump n) := ⟨diwTag_append _ _, diwImm_append _ _⟩
theorem WordFields.move (n : Word) : WordFields.Statement (.move n) := ⟨diwTag_append _ _, diwImm_append _ _⟩
theorem WordFields.exit (n : Word) : WordFields.Statement (.exit n) := ⟨diwTag_append _ _, diwImm_append _ _⟩
theorem WordFields.invalid (n : Word) : WordFields.Statement (.invalid n) := ⟨diwTag_append _ _, diwImm_append _ _⟩

end Sys2Proof.Laws
end

