-- ==== Sys2Proof/Tests/Slice0.lean ====
section
/-! SUPPORT. Small tests. Expected results come from spec/95_test_vectors.md (the id of a vector stands in the comment),
from the tables of the rule named, or from hand calculation from them. A test is one step, one decode or one load; the
witnesses at the end show states and operands that meet the hypotheses of the statements. -/

namespace Sys2Proof.Tests

open Sys2Proof.Machine

/-- A RUNNING state in the notation of 95_test_vectors.md: `S` is written bottom first, as there. -/
def at_ (pc : Word) (x : Regs) (S : List Word) (program : List Instr := []) : State :=
  { State.reset with
    regs := x, pc := pc, stack := S.reverse, program := program.map encode, status := .running }

/-- All six registers 0. -/
def x0s : Regs := ⟨0, 0, 0, 0, 0, 0⟩

/-- The next state of an outcome, if it is one. -/
def next? : Result → Option State
  | .next s => some s
  | .fault _ => none
  | .refused _ => none

/-- One field of the next state. -/
def look {α : Type} (f : State → α) (r : Result) : Option α := (next? r).map f

/-- The stack bottom first. -/
def S (s : State) : List Word := s.stack.reverse

/-- Program text from code points. -/
def text (cs : List Nat) : List Scalar := cs.map Char.ofNat

/-! ### Well-formedness: each check refuses an ill-formed term -/

theorem test_params_wellFormed : params.wellFormed = true := by decide
theorem test_delim_equal_to_symB_refused : ({ params with symDelim := params.symB } : Params).delimIsSentinel = false := by
  decide
theorem test_equal_opcode_symbols_refused : ({ params with symB := params.symA } : Params).opcodeSymbolsDiffer = false := by
  decide
theorem test_symC_equal_to_lineSep_refused :
    ({ params with symC := params.lineSep } : Params).noSymbolIsLineSep = false := by
  decide
theorem test_line_without_delim_refused : lineHasTwoFields params (text [0x1F415, 0x1F415]) = false := by decide
theorem test_line_with_symB_operand_refused : lineTailIsUnary params (text [0x1F415, 0x1F431, 0x1F436]) = false := by decide
theorem test_line_with_2p64_operand_refused :
    lineTailFits params (params.symDelim :: List.replicate (2 ^ 64) params.symC) = false := by
  have h : lineTail params (params.symDelim :: List.replicate (2 ^ 64) params.symC) =
      List.replicate (2 ^ 64) params.symC := by
    rw [← operandField_eq_lineTail]
    · exact operandField_mk params [] _ (by simp)
    · have : params.symDelim ∉ List.replicate (2 ^ 64) params.symC := by
        intro hm
        exact absurd (List.mem_replicate.mp hm).2 (by decide)
      exact lineSplits_mk params [] _ (by simp) this
  rw [lineTailFits, h, List.length_replicate]
  rfl
theorem test_word_with_tag_ten_refused : diwWellFormed 0xA0000000000000000#68 = false := by decide

/-! ### Decoding: lines written out symbol by symbol (T-DEC-1 to T-DEC-27), words written out from R63 -/

-- T-DEC-1
theorem test_line_push : decodeLine params (text [0x1F415, 0x1F431]) = .ok (.push 0) := by decide
-- T-DEC-2
theorem test_line_pop : decodeLine params (text [0x1F436, 0x1F431, 0x1F415, 0x1F415]) = .ok (.pop 2) := by decide
-- T-DEC-3
theorem test_line_add :
    decodeLine params (text [0x1F415, 0x1F415, 0x1F431, 0x1F415, 0x1F415, 0x1F415]) = .ok (.add 3) := by decide
-- T-DEC-4
theorem test_line_mul :
    decodeLine params (text [0x1F415, 0x1F436, 0x1F415, 0x1F431, 0x1F415, 0x1F415]) = .ok (.mul 2) := by decide
-- T-DEC-5
theorem test_line_print :
    decodeLine params (text [0x1F436, 0x1F436, 0x1F436, 0x1F431, 0x1F415]) = .ok (.print 1) := by decide
-- T-DEC-6
theorem test_line_input :
    decodeLine params (text [0x1F436, 0x1F436, 0x1F436, 0x1F436, 0x1F431]) = .ok (.input 0) := by decide
-- T-DEC-7
theorem test_line_jump :
    decodeLine params (text [0x1F436, 0x1F436, 0x1F436, 0x1F436, 0x1F415, 0x1F431, 0x1F415, 0x1F415, 0x1F415]) =
      .ok (.jump 3) := by decide
-- T-DEC-8
theorem test_line_move : decodeLine params (text [0x1F415, 0x1F436, 0x1F431, 0x1F415]) = .ok (.move 1) := by decide
-- T-DEC-10
theorem test_line_exit :
    decodeLine params (text [0x1F415, 0x1F415, 0x1F415, 0x1F415, 0x1F415, 0x1F415, 0x1F415, 0x1F415, 0x1F415, 0x1F415,
      0x1F431]) = .ok (.exit 0) := by decide
-- T-DEC-12: nine A
theorem test_line_nine_A :
    decodeLine params (text [0x1F415, 0x1F415, 0x1F415, 0x1F415, 0x1F415, 0x1F415, 0x1F415, 0x1F415, 0x1F415,
      0x1F431]) = .ok (.invalid 0) := by decide
-- T-DEC-18: the empty opcode field
theorem test_line_empty_field : decodeLine params (text [0x1F431, 0x1F415, 0x1F415]) = .ok (.invalid 2) := by decide
-- T-DEC-19: a space in the opcode field
theorem test_line_space : decodeLine params (text [0x20, 0x1F415, 0x1F431, 0x1F415]) = .ok (.invalid 1) := by decide
-- T-DEC-23: two delimiters
theorem test_line_two_delims :
    decodeLine params (text [0x1F415, 0x1F431, 0x1F415, 0x1F431, 0x1F415]) =
      .error (.invalidLine (text [0x1F415, 0x1F431, 0x1F415, 0x1F431, 0x1F415])) := by decide
-- T-DEC-26: the operand is checked although the opcode field is unrecognised
theorem test_line_bad_operand :
    decodeLine params (text [0x1F436, 0x1F436, 0x1F431, 0x78]) = .error (.invalidImm (text [0x78])) := by decide

theorem test_word_push : decode 0x00000000000000003#68 = .push 3 := by decide
theorem test_word_pop : decode 0x10000000000000002#68 = .pop 2 := by decide
theorem test_word_add : decode 0x2FFFFFFFFFFFFFFFF#68 = .add 0xFFFFFFFFFFFFFFFF := by decide
theorem test_word_mul : decode 0x38000000000000001#68 = .mul 0x8000000000000001 := by decide
theorem test_word_print : decode 0x40000000000000001#68 = .print 1 := by decide
theorem test_word_input : decode 0x50000000000000000#68 = .input 0 := by decide
theorem test_word_jump : decode 0x60000000000000007#68 = .jump 7 := by decide
theorem test_word_move : decode 0x70000000000000102#68 = .move 258 := by decide
theorem test_word_exit : decode 0x80000000000000009#68 = .exit 9 := by decide
theorem test_word_invalid : decode 0x90000000000000007#68 = .invalid 7 := by decide
theorem test_word_reserved_tag : decode 0xF0000000000000001#68 = .invalid 1 := by decide
theorem test_table_word_move : decodeTableWord 72 0x70000000000000000 = some (.move 0) := by decide
theorem test_table_word_too_wide : decodeTableWord 72 0x100000000000000000 = none := by decide

/-- No two opcode patterns are the same (30_encoding.md R56), so the match is unambiguous. -/
theorem test_patterns_differ : List.Pairwise (fun j k : Kind => j.pattern ≠ k.pattern) patternKinds := by decide

-- 60_exceptions.md R141, 10_state.md R21, 44_move.md R107
theorem test_codes : FaultKind.code .outputEncodingFault = 0x16 ∧ Status.code .loadFailed = 5 := by decide
theorem test_move_operand : moveOperand .r5 .r0 = 1280 ∧ moveOperand .r1 .r2 = 258 := by decide

theorem test_asm_move : (Instr.move 258).asm "" = "move 258" := by decide

/-! ### Load -/

-- T-LOAD-2
theorem test_load_two_lines :
    look (fun t => (t.program.map decode, t.status, t.pc))
      (hostLoad (text [0x1F415, 0x1F431, 0x1F415, 0x0A, 0x1F436, 0x1F431]) State.reset) =
      some ([.push 1, .pop 0], .loaded, 0) := by decide
-- T-LOAD-1: the empty text is one empty line
theorem test_load_empty_text :
    look State.hostView (hostLoad [] State.reset) = some ⟨.loadFailed, .invalidLine, .text [], []⟩ := by decide
-- T-LOAD-4: line 0 decides
theorem test_load_first_bad_line :
    look State.hostView (hostLoad (text [0x1F415, 0x1F431, 0x1F436, 0x0A, 0x1F415, 0x1F415]) State.reset) =
      some ⟨.loadFailed, .invalidImm, .text (text [0x1F436]), []⟩ := by decide

/-! ### Instructions, one step each -/

-- T-PUSH-2
theorem test_push : look (fun t => (S t, t.pc)) (exec (.push 3) (at_ 3 x0s [9])) = some ([9, 3], 4) := by decide
-- T-POP-2
theorem test_pop : look (fun t => (S t, t.regs.x0)) (exec (.pop 2) (at_ 0 x0s [5, 6, 7])) = some ([5], 6) := by decide
-- T-POP-7
theorem test_pop_past_bottom :
    look (fun t => (t.faultKind, t.regs.x0, S t, t.pc)) (exec (.pop 3) (at_ 2 ⟨4, 0, 0, 0, 0, 0⟩ [5, 6])) =
      some (.emptyStackError, 5, [], 2) := by decide
-- T-ADD-8
theorem test_add : look S (exec (.add 3) (at_ 0 ⟨0, 7, 0, 0, 0, 0⟩ [100])) = some [100, 10] := by decide
-- T-ADD-6
theorem test_add_wraps : look S (exec (.add 3) (at_ 0 ⟨0, 0xFFFFFFFFFFFFFFFF, 0, 0, 0, 0⟩ [])) = some [2] := by decide
-- T-MUL-2
theorem test_mul_by_zero_register : look S (exec (.mul 5) (at_ 0 x0s [])) = some [0] := by decide
-- T-MUL-10
theorem test_mul_wraps : look S (exec (.mul 3) (at_ 0 ⟨0, 0x5555555555555556, 0, 0, 0, 0⟩ [])) = some [2] := by decide
-- T-PRT-3
theorem test_print :
    look (fun t => (t.out, S t, t.regs.x0)) (exec (.print 3) (at_ 0 x0s [10, 105, 72])) =
      some ([0x48, 0x69, 0x0A], [], 10) := by decide
-- T-PRT-12
theorem test_print_ill_formed :
    look (fun t => (t.faultKind, t.out, S t)) (exec (.print 2) (at_ 0 x0s [0xC2, 0xA9])) =
      some (.outputEncodingFault, [], []) := by decide
-- T-INP-1
theorem test_input :
    look (fun t => (t.status, t.faultKind, S t, t.pc)) (exec (.input 0) (at_ 1 x0s [1])) =
      some (.faulted, .inputNotSupported, [1], 1) := by decide
-- T-JMP-2
theorem test_jump : look State.pc (exec (.jump 0) (at_ 4 x0s [])) = some 0 := by decide
-- T-JMP-5: the fault belongs to the next fetch
theorem test_jump_out_of_range :
    look (fun t => (t.faultKind, t.faultInfo)) (step (at_ 7 x0s [] [.jump 7, .exit 0])) =
      some (.invalidPcError, .address 7) := by decide
-- T-MOV-3
theorem test_move : look State.regs (exec (.move 0x0500) (at_ 0 ⟨7, 8, 0, 0, 0, 9⟩ [])) = some ⟨9, 8, 0, 0, 0, 9⟩ := by
  decide
-- T-MOV-9: the source id is tested first
theorem test_move_source_id_first :
    look (fun t => (t.faultKind, t.faultInfo)) (exec (.move 0x0709) (at_ 0 x0s [])) =
      some (.invalidRegisterError, .register 7) := by decide
-- T-EXIT-1
theorem test_exit :
    look (fun t => (t.status, t.pc, S t)) (exec (.exit 0) (at_ 6 x0s [1, 2])) = some (.exited, 6, [1, 2]) := by decide
-- T-INV-1
theorem test_invalid :
    look (fun t => (t.faultKind, t.faultInfo, t.pc)) (exec (.invalid 0) (at_ 2 x0s [])) =
      some (.invalidInstruction, .address 2, 2) := by decide

-- T-PRT-14, T-PRT-15, T-PRT-16
theorem test_text_dog : wellFormedText .utf8 [0xF0, 0x9F, 0x90, 0x95] = true := by decide
theorem test_text_overlong : wellFormedText .utf8 [0xC0, 0x80] = false := by decide
theorem test_text_surrogate : wellFormedText .utf8 [0xED, 0xA0, 0x80] = false := by decide

-- T-PRT-19, T-ADD-5, R81: the alternatives of the parameters
theorem test_print_without_scratch :
    look (fun t => (t.out, t.regs.x0)) (printWith { params with printWritesScratch := false } 1
      (at_ 0 ⟨9, 0, 0, 0, 0, 0⟩ [3])) = some ([3], 9) := by decide
theorem test_add_fault_parameter :
    look State.faultKind (addWith { params with addOverflow := .fault } 1
      (at_ 0 ⟨0, 0xFFFFFFFFFFFFFFFF, 0, 0, 0, 0⟩ [])) = some .arithmeticOverflowFault := by decide

/-! ### Reset, run and the placing of a word -/

-- T-RUN-1: run with nothing loaded
theorem test_run_with_nothing_loaded :
    look State.hostView (step { State.reset with status := .running }) =
      some ⟨.faulted, .invalidPcError, .address 0, []⟩ := by decide
theorem test_placed_word_runs_next :
    look (fun t => (S t, t.pc)) (step (State.reset.withFetchWord 72 0x00000000000000003)) = some ([3], 1) := by decide

/-! ### Witnesses: states and operands that meet the hypotheses of the statements, at the boundary of each clause -/

theorem witness_RunCommandOnlySetsStatus :
    State.reset.status = .idle ∧ State.reset.pc = 0 ∧ State.reset.program = [] ∧
      ((at_ 0 x0s []).status ≠ .idle ∧ (at_ 0 x0s []).status ≠ .loaded) := by decide

theorem witness_LoadStoresTheDecodedLines :
    State.reset.status = .idle ∧
      (splitLines params (text [0x1F415, 0x1F431, 0x0A, 0x1F431])).length < 2 ^ 64 ∧
      (splitLines params (text [0x1F415, 0x1F431, 0x0A, 0x1F431])).map (decodeLine params) =
        [Instr.push 0, Instr.invalid 0].map Except.ok := by decide

/-- Both clauses: a good line, then a line with two delimiters; a good line, then a foreign operand. -/
theorem witness_LoadFailsAtTheFirstBadLine :
    State.reset.status = .idle ∧
    (splitLines params (text [0x1F431, 0x0A, 0x1F431, 0x1F431])).length < 2 ^ 64 ∧
    (splitLines params (text [0x1F431, 0x0A, 0x1F431, 0x78])).length < 2 ^ 64 ∧
    (splitLines params (text [0x1F431, 0x0A, 0x1F431, 0x1F431]) =
        [text [0x1F431]] ++ text [0x1F431, 0x1F431] :: [] ∧
      lineWellFormed params (text [0x1F431]) = true ∧ lineHasTwoFields params (text [0x1F431, 0x1F431]) = false) ∧
    (splitLines params (text [0x1F431, 0x0A, 0x1F431, 0x78]) = [text [0x1F431]] ++ text [0x1F431, 0x78] :: [] ∧
      lineHasTwoFields params (text [0x1F431, 0x78]) = true ∧
      lineTailIsUnary params (text [0x1F431, 0x78]) = false) := by decide

theorem witness_EncodedTextLoadsBack :
    [Instr.invalid 2, Instr.exit 0] ≠ [] ∧ [Instr.invalid 2, Instr.exit 0].length < 2 ^ 64 ∧
      State.reset.status = .idle := by decide

theorem witness_OnlyResetLeavesATerminalStatus :
    ({ State.reset with status := .exited } : State).status = .exited ∧
      ({ State.reset with status := .faulted } : State).status = .faulted ∧
      ({ State.reset with status := .loadFailed } : State).status = .loadFailed := by decide

theorem witness_StepRunsTheDecodedInstruction :
    (at_ 1 x0s [] [.push 1, .jump 9]).status = .running ∧
      (at_ 1 x0s [] [.push 1, .jump 9]).program[1]? = some 0x60000000000000009#68 ∧
      decode 0x60000000000000009#68 = .jump 9 := by decide

/-- The clauses in turn: `pc` just past the program; an empty program; the last instruction of the program; a Jump just
past the program. -/
theorem witness_FetchOutsideTheProgramFaults :
    ((at_ 1 x0s [] [.push 1]).status = .running ∧ (at_ 1 x0s [] [.push 1]).program.length ≤ (1 : Word).toNat) ∧
    ((at_ 0 x0s []).status = .running ∧ (at_ 0 x0s []).program = []) ∧
    ((at_ 0 x0s [] [.push 1]).status = .running ∧ (at_ 0 x0s [] [.push 1]).program.length = 1 ∧ (at_ 0 x0s [] [.push 1]).pc.toNat + 1 = 1 ∧
      look (fun t => (t.status, t.pc)) (step (at_ 0 x0s [] [.push 1])) = some (.running, 1)) ∧
    ((at_ 0 x0s [] [.jump 1]).status = .running ∧ (at_ 0 x0s [] [.jump 1]).program.length ≤ (1 : Word).toNat) := by
  decide

theorem witness_RunningCoreAlwaysSteps : (at_ 0 x0s []).status = .running := by decide

/-- A Jump, an instruction that advances, and one that faults. -/
theorem witness_ProgramCounterAfterEachKind :
    (at_ 3 x0s []).status = .running ∧
    look (fun t => (t.status, t.pc)) (exec (.jump 5) (at_ 3 x0s [])) = some (.running, 5) ∧
      look (fun t => (t.status, t.pc)) (exec (.mul 5) (at_ 3 x0s [])) = some (.running, 4) ∧
      look (fun t => (t.status, t.pc)) (exec (.pop 1) (at_ 3 x0s [])) = some (.faulted, 3) := by decide

/-- Two runs of one step with different registers and stacks, both still running. -/
theorem witness_DataNeverSteersTheProgramCounter :
    (at_ 0 x0s [] [.pop 0]).status = .running ∧ (at_ 0 ⟨1, 2, 3, 4, 5, 6⟩ [7] [.pop 0]).status = .running ∧
      (at_ 0 x0s [] [.pop 0]).pc = (at_ 0 ⟨1, 2, 3, 4, 5, 6⟩ [7] [.pop 0]).pc ∧
    (at_ 0 x0s [] [.pop 0]).program = (at_ 0 ⟨1, 2, 3, 4, 5, 6⟩ [7] [.pop 0]).program ∧
      look State.status (Host.Core.run core 1 (at_ 0 x0s [] [.pop 0])) = some .running ∧
      look State.status (Host.Core.run core 1 (at_ 0 ⟨1, 2, 3, 4, 5, 6⟩ [7] [.pop 0])) = some .running := by decide

theorem witness_ProgramStoreIsWrittenByLoadOnly :
    (at_ 0 x0s []).status = .running ∧
      ∃ l r t, hostMove (.load (text [0x1F415, 0x1F431])) State.reset = .next l ∧ l.status = .loaded ∧
        hostMove .run l = .next r ∧ Host.Core.run core 1 r = .next t ∧
        (splitLines params (text [0x1F415, 0x1F431]))[0]? = some (text [0x1F415, 0x1F431]) :=
  ⟨by decide, _, _, _, rfl, rfl, rfl, rfl, by decide⟩

theorem witness_JumpToItselfRunsForever :
    (at_ 0 x0s [] [.jump 0]).status = .running ∧
      (at_ 0 x0s [] [.jump 0]).program[0]? = some 0x60000000000000000#68 ∧
      decode 0x60000000000000000#68 = .jump (at_ 0 x0s [] [.jump 0]).pc := by decide

/-- The largest sum that fits. -/
theorem witness_AddIsPushOfTheSum :
    ((at_ 0 ⟨0, 0xFFFFFFFFFFFFFFFE, 0, 0, 0, 0⟩ []).readReg .r1).toNat + (1 : Word).toNat < 2 ^ 64 := by decide

theorem witness_MulByZeroAndByOne :
    (at_ 0 x0s []).readReg .r1 = 0 ∧ (at_ 0 ⟨0, 1, 0, 0, 0, 0⟩ []).readReg .r1 = 1 := by decide

/-- At capacity, one below it, and the smallest sum that overflows. -/
theorem witness_ParameterFaultsOfPushAddMul :
    ({ params with stackCapacity := some 1 } : Params).stackCapacity = some 1 ∧
      1 ≤ (at_ 0 x0s [9]).stack.length ∧ (at_ 0 x0s []).stack.length < 1 ∧
      ({ params with stackCapacity := some 1 } : Params).addOverflow = .wrap ∧
      ({ params with addOverflow := .fault } : Params).addOverflow = .fault ∧
      2 ^ 64 ≤ ((at_ 0 ⟨0, 0xFFFFFFFFFFFFFFFF, 0, 0, 0, 0⟩ []).readReg .r1).toNat + (1 : Word).toNat := by decide

/-- The depth itself and one more than the depth, for every statement about Pop and about Print past the bottom. -/
theorem witness_PopRemovesExactlyItsCount :
    (2 : Word).toNat ≤ (at_ 0 x0s [5, 6]).stack.length ∧ (at_ 0 x0s [5, 6]).stack.length < (3 : Word).toNat := by decide
theorem witness_PopNetEffect : (2 : Word).toNat ≤ (at_ 0 x0s [5, 6]).stack.length := by decide
theorem witness_PopPastTheBottom : (at_ 0 x0s []).stack.length < (1 : Word).toNat := by decide
theorem witness_EmptyStackErrorExactlyPastTheDepth :
    (at_ 0 x0s [65]).stack.length < (2 : Word).toNat ∧
      ((1 : Word).toNat ≤ (at_ 0 x0s [65]).stack.length ∧ (at_ 0 x0s [65]).faultKind ≠ .emptyStackError) := by decide

theorem witness_PrintAppendsTheLowBytes :
    (2 : Word).toNat ≤ (at_ 0 x0s [0xA9, 0xC2]).stack.length ∧
      wellFormedText .utf8 (((at_ 0 x0s [0xA9, 0xC2]).stack.take 2).map (fun v => v.extractLsb' 0 8)) = true := by decide
theorem witness_PrintOfPlainBytesCompletes :
    (2 : Word).toNat ≤ (at_ 0 x0s [0x17F, 0]).stack.length ∧
      ∀ v ∈ (at_ 0 x0s [0x17F, 0]).stack.take 2, v.toNat % 256 < 128 := by
  refine ⟨by decide, fun v hv => ?_⟩
  rcases List.mem_cons.mp hv with rfl | hv
  · decide
  · rw [List.mem_singleton.mp hv]
    decide
theorem witness_PrintOfIllFormedTextFaults :
    (1 : Word).toNat ≤ (at_ 0 x0s [0x80]).stack.length ∧
      wellFormedText .utf8 (((at_ 0 x0s [0x80]).stack.take 1).map (fun v => v.extractLsb' 0 8)) = false := by decide
theorem witness_PrintPastTheBottom : (at_ 0 x0s [0x80]).stack.length < (2 : Word).toNat := by decide
theorem witness_PrintWithoutScratchKeepsTheRegisters :
    (look State.out (exec (.print 1) (at_ 0 x0s [3]))).isSome = true := by decide
theorem witness_OutputGrowsByPrintOnly :
    look State.out (exec (.print 1) (at_ 0 x0s [3])) = some [3] ∧
      look State.out (exec (.pop 1) (at_ 0 x0s [3])) = some [] := by decide

/-- The last address of the program, and the first one past it. -/
theorem witness_JumpMakesTheTargetTheNextFetch :
    (at_ 0 x0s [] [.jump 1, .exit 0]).status = .running ∧
    (at_ 0 x0s [] [.jump 1, .exit 0]).program[(1 : Word).toNat]? = some 0x80000000000000000#68 ∧
      (at_ 0 x0s [] [.jump 1, .exit 0]).program.length ≤ (2 : Word).toNat := by decide

theorem witness_MoveCopiesARegister :
    (0x10505 : Word).toNat % 65536 = 256 * RegId.r5.toByte.toNat + RegId.r5.toByte.toNat ∧
      (0 : Word).toNat % 65536 = 256 * RegId.r0.toByte.toNat + RegId.r0.toByte.toNat := by decide
theorem witness_MoveThenReadReturnsTheSource :
    ((6 < 256 ∧ 5 < 256) ∧ (5 < 6 ∨ 5 < 5)) ∧ ((5 < 256 ∧ 255 < 256) ∧ (5 < 5 ∨ 5 < 255)) := by decide
/-- The smallest invalid source with a valid destination, and the largest invalid destination with the largest valid
source. -/
theorem witness_MoveWithAnInvalidIdFaults :
    6 ≤ (0x0605 : Word).toNat / 256 % 256 ∧
      ((0x05FF : Word).toNat / 256 % 256 ≤ 5 ∧ 6 ≤ (0x05FF : Word).toNat % 256) := by decide

theorem witness_OnlyExitEndsARunWell :
    (at_ 0 x0s [] [.exit 0]).status = .running ∧
      look State.status (step (at_ 0 x0s [] [.exit 0])) = some .exited := by decide

theorem witness_FaultsCarryTheirValue :
    (at_ 0 x0s []).status = .running ∧ look State.status (exec (.move 6) (at_ 0 x0s [])) = some .faulted ∧
      (at_ 0 x0s []).program.length ≤ (at_ 0 x0s []).pc.toNat ∧
      (at_ 1 x0s [] [.push 0]).pc.toNat = (at_ 1 x0s [] [.push 0]).program.length ∧
      (at_ 0 x0s [] [.jump 7]).program.length ≤ (7 : Word).toNat := by decide

/-- A fault of an instruction that pops, and of one that does not. -/
theorem witness_FaultingInstructionFrame :
    (at_ 0 x0s [65]).status = .running ∧
    look State.status (exec (.print 2) (at_ 0 x0s [65])) = some .faulted ∧
      look State.status (exec (.move 6) (at_ 0 x0s [65])) = some .faulted := by decide

theorem witness_RegistersWrittenByEachKind :
    (look State.regs (exec (.add 1) (at_ 0 x0s []))).isSome = true ∧
      look State.regs (exec (.pop 1) (at_ 0 x0s [9])) = some ⟨9, 0, 0, 0, 0, 0⟩ ∧
      (look State.regs (exec (.move 1) (at_ 0 x0s []))).isSome = true ∧
      RegId.r2.toByte.toNat ≠ (1 : Word).toNat % 256 := by decide

/-- The largest tag a line produces and the smallest it does not. -/
theorem witness_WordDecodeAndEncodeAgree :
    (0x9FFFFFFFFFFFFFFFF#68).toNat / 2 ^ 64 ≤ 9 ∧ 10 ≤ (0xA0000000000000000#68).toNat / 2 ^ 64 := by decide

theorem witness_LineDecodeOfEncodeIsIdentity :
    params.wellFormed = true ∧ ({ params with symC := Char.ofNat 0x43 } : Params).wellFormed = true := by decide

theorem witness_LineOfAnInstructionIsUnique : ∀ n, Instr.push 0 ≠ .invalid n := by
  intro n
  exact Instr.noConfusion

theorem witness_LineWithoutOneDelimiterFails :
    State.reset.status = .idle ∧
      (splitLines params (text [0x1F415, 0x1F415, 0x0A, 0x1F431])).length < 2 ^ 64 ∧
      (splitLines params (text [0x1F415, 0x1F415, 0x0A, 0x1F431]))[0]? = some (text [0x1F415, 0x1F415]) ∧
      (text [0x1F415, 0x1F415]).count params.symDelim ≠ 1 ∧
      decodeLine params (text [0x1F431, 0x1F431]) = .error (.invalidLine (text [0x1F431, 0x1F431])) := by decide

/-- No repetition at all, and a field with a foreign symbol in it. -/
theorem witness_ImmediateIsTheCountOfSymbolC :
    params.symDelim ∉ text [0x1F415] ∧ params.symDelim ∉ List.replicate 0 params.symC ∧ 0 < 2 ^ 64 ∧
      params.symDelim ∉ text [0x1F436] ∧ ∃ c ∈ text [0x1F436], c ≠ params.symC :=
  ⟨by decide, by decide, by decide, by decide, Char.ofNat 0x1F436, by decide, by decide⟩

theorem witness_OpcodeFieldSelectsTheKind :
    (3 : Word).toNat = 3 ∧ params.symDelim ∉ text [0x1F415, 0x1F436] ∧ params.symDelim ∉ text [0x20] := by decide

/-- A RUNNING state that meets the invariant, and its step. -/
theorem witness_StepKeepsTheInvariant :
    Inv (at_ 0 x0s [3] [.print 1]) ∧ (look State.out (step (at_ 0 x0s [3] [.print 1]))) = some [3] :=
  ⟨⟨by decide, fun _ hd => List.mem_singleton.mp hd ▸ diwWellFormed_encode (.print 1), by decide, ⟨rfl, rfl⟩⟩, by decide⟩

/-- A LOADED state that meets the invariant, and a second load, which fails. -/
theorem witness_HostMovesKeepTheInvariant :
    Inv { State.reset with status := .loaded, program := [encode (.exit 0)] } ∧
      look State.status (hostMove (.load []) { State.reset with status := .loaded, program := [encode (.exit 0)] }) =
        some .loadFailed :=
  ⟨⟨by decide, fun _ hd => List.mem_singleton.mp hd ▸ diwWellFormed_encode (.exit 0), by decide,
    ⟨⟨rfl, rfl, rfl, rfl⟩, rfl, rfl⟩⟩, by decide⟩

theorem witness_EveryRunStartsFresh :
    Reachable State.reset ∧ hostMove .run State.reset = .next { State.reset with status := .running } :=
  ⟨.reset, rfl⟩

/-- Run with nothing loaded, and its first step. -/
theorem witness_FaultRecordTellsTheTruth :
    ∃ s, Reachable s ∧ s.status = .faulted ∧ s.faultKind = .invalidPcError :=
  ⟨_, .step (.host .run .reset (rfl : hostMove .run State.reset = .next { State.reset with status := .running })) rfl,
    rfl, rfl⟩

end Sys2Proof.Tests
end

section
/-! PROOFS. What each instruction answers, as equations and inversion lemmas about `exec`: the layer the proofs of the
statements cite. -/

namespace Sys2Proof.Machine

/-! ### The kinds with one outcome -/

@[simp] theorem exec_push (n : Word) (s : State) : exec (.push n) s = .next (s.stackPush n).advance :=
  execPush_eq n s

@[simp] theorem exec_add (n : Word) (s : State) :
    exec (.add n) s = .next (s.stackPush (s.readReg .r1 + n)).advance :=
  execAdd_eq n s

@[simp] theorem exec_mul (n : Word) (s : State) :
    exec (.mul n) s = .next (s.stackPush (s.readReg .r1 * n)).advance :=
  execMul_eq n s

@[simp] theorem exec_input (n : Word) (s : State) :
    exec (.input n) s = .next (raise .inputNotSupported .nothing s) :=
  execInput_eq n s

@[simp] theorem exec_jump (n : Word) (s : State) : exec (.jump n) s = .next (s.setPc n) :=
  execJump_eq n s

@[simp] theorem exec_exit (n : Word) (s : State) : exec (.exit n) s = .next (haltOk s) :=
  execExit_eq n s

@[simp] theorem exec_invalid (n : Word) (s : State) :
    exec (.invalid n) s = .next (raise .invalidInstruction (.address s.pc) s) :=
  execInvalid_eq n s

/-- The frame they share: neither the registers nor the output change. -/
theorem exec_regs_out_of_ne_pop_print_move {i : Instr} {s t : State}
    (hi : ∀ n, i ≠ .pop n ∧ i ≠ .print n ∧ i ≠ .move n) (h : exec i s = .next t) :
    t.regs = s.regs ∧ t.out = s.out := by
  cases i with
  | pop n => exact absurd rfl (hi n).1
  | print n => exact absurd rfl (hi n).2.1
  | move n => exact absurd rfl (hi n).2.2
  | push n | add n | mul n | input n | jump n | exit n | invalid n =>
    simp only [exec_push, exec_add, exec_mul, exec_input, exec_jump, exec_exit, exec_invalid,
      Host.Outcome.next.injEq] at h
    subst h
    exact ⟨rfl, rfl⟩

/-! ### The kinds with more than one outcome -/

/-- Everything Pop can do: pop `n` values and advance, or empty the stack and fault. -/
theorem exec_pop_cases {n : Word} {s t : State} (h : exec (.pop n) s = .next t) :
    (n.toNat ≤ s.stack.length ∧ t = (s.popped true n.toNat).advance) ∨
      (s.stack.length < n.toNat ∧ t = raise .emptyStackError .nothing (s.popped true s.stack.length)) := by
  replace h : execPop n s = .next t := h
  rw [execPop_eq] at h
  split at h
  next hn => exact .inl ⟨hn, (Host.Outcome.next.inj h).symm⟩
  next hn => exact .inr ⟨Nat.lt_of_not_le hn, (Host.Outcome.next.inj h).symm⟩

/-- The bytes `Print(n)` collects: the low bytes of the top `n` values, in pop order (42_io.md R92). -/
def State.printBytes (n : Word) (s : State) : List Byte :=
  (s.stack.take n.toNat).map lowByte

/-- Everything Print can do: write its bytes and advance, fault on their text after the pops, or empty the stack and
fault. -/
theorem exec_print_cases {n : Word} {s t : State} (h : exec (.print n) s = .next t) :
    (n.toNat ≤ s.stack.length ∧ wellFormedText .utf8 (s.printBytes n) = true ∧
        t = ((s.popped true n.toNat).outWrite (s.printBytes n)).advance) ∨
      (n.toNat ≤ s.stack.length ∧ wellFormedText .utf8 (s.printBytes n) = false ∧
        t = raise .outputEncodingFault .nothing (s.popped true n.toNat)) ∨
      (s.stack.length < n.toNat ∧ t = raise .emptyStackError .nothing (s.popped true s.stack.length)) := by
  replace h : printWith params n s = .next t := h
  rw [printWith_eq] at h
  split at h
  next hn =>
    split at h
    next ht => exact .inl ⟨hn, ht, (Host.Outcome.next.inj h).symm⟩
    next ht => exact .inr (.inl ⟨hn, Bool.eq_false_of_not_eq_true ht, (Host.Outcome.next.inj h).symm⟩)
  next hn => exact .inr (.inr ⟨Nat.lt_of_not_le hn, (Host.Outcome.next.inj h).symm⟩)

/-- Everything Move can do to the state: take the register fault with some id, or copy into the register its low byte
names and advance. -/
theorem exec_move_cases {n : Word} {s t : State} (h : exec (.move n) s = .next t) :
    (∃ id, t = raise .invalidRegisterError (.register id) s) ∨
      ∃ src dst : RegId, moveSrc n = src.toByte ∧ moveDst n = dst.toByte ∧
        t = (s.writeReg dst (s.readReg src)).advance := by
  replace h : execMove n s = .next t := h
  obtain ⟨-, e⟩ | ⟨-, -, -, e⟩ | ⟨src, dst, hsrc, hdst, e⟩ := execMove_cases n s <;>
    have ht := (Host.Outcome.next.inj (e.symm.trans h)).symm
  · exact .inl ⟨_, ht⟩
  · exact .inl ⟨_, ht⟩
  · exact .inr ⟨src, dst, hsrc, hdst, ht⟩

end Sys2Proof.Machine
end

section
/-! PROOFS. The state: what reset leaves, who writes the output and the registers, and how a terminal status is left
(10_state.md). -/

namespace Sys2Proof.Machine

/-! ### The output -/

/-- What one Print appends is well-formed text, empty when it faults. -/
theorem exec_print_appends_text {n : Word} {s t : State} (h : exec (.print n) s = .next t) :
    ∃ bs, t.out = s.out ++ bs ∧ wellFormedText .utf8 bs = true := by
  obtain ⟨-, htext, rfl⟩ | ⟨-, -, rfl⟩ | ⟨-, rfl⟩ := exec_print_cases h
  · exact ⟨s.printBytes n, rfl, htext⟩
  · exact ⟨[], by simp, wellFormedText_nil _⟩
  · exact ⟨[], by simp, wellFormedText_nil _⟩

theorem exec_out_of_ne_print {i : Instr} {s t : State} (hi : ∀ n, i ≠ .print n) (h : exec i s = .next t) :
    t.out = s.out := by
  cases i with
  | print n => exact absurd rfl (hi n)
  | pop n => obtain ⟨-, rfl⟩ | ⟨-, rfl⟩ := exec_pop_cases h <;> simp
  | move n => obtain ⟨id, rfl⟩ | ⟨src, dst, -, -, rfl⟩ := exec_move_cases h <;> simp
  | push n | add n | mul n | input n | jump n | exit n | invalid n =>
    exact (exec_regs_out_of_ne_pop_print_move (by simp) h).2

/-- Settles O31: a Print appends the text it checked or nothing, and every other kind leaves the output alone. -/
theorem outputGrowsByPrintOnly : Obligations.OutputGrowsByPrintOnly := by
  intro i s t h
  by_cases hi : ∀ n, i ≠ .print n
  · exact ⟨[], by simp [exec_out_of_ne_print hi h], wellFormedText_nil _, fun _ => rfl⟩
  · obtain ⟨n, rfl⟩ : ∃ n, i = .print n := by simpa using hi
    obtain ⟨bs, hout, htext⟩ := exec_print_appends_text h
    exact ⟨bs, hout, htext, fun hne => absurd rfl (hne n)⟩

/-! ### The registers -/

/-- Pop writes no register but the scratch register. -/
theorem exec_pop_readReg {n : Word} {s t : State} (h : exec (.pop n) s = .next t) {r : RegId} (hr : r ≠ .r0) :
    t.readReg r = s.readReg r := by
  obtain ⟨-, rfl⟩ | ⟨-, rfl⟩ := exec_pop_cases h <;> simp [read_scratchAfter, hr]

/-- Print writes no register but the scratch register. -/
theorem exec_print_readReg {n : Word} {s t : State} (h : exec (.print n) s = .next t) {r : RegId} (hr : r ≠ .r0) :
    t.readReg r = s.readReg r := by
  obtain ⟨-, -, rfl⟩ | ⟨-, -, rfl⟩ | ⟨-, rfl⟩ := exec_print_cases h <;> simp [read_scratchAfter, hr]

/-- Move writes no register but the one its low byte names. -/
theorem exec_move_readReg {n : Word} {s t : State} (h : exec (.move n) s = .next t) {r : RegId}
    (hr : r.toByte.toNat ≠ n.toNat % 256) : t.readReg r = s.readReg r := by
  obtain ⟨id, rfl⟩ | ⟨src, dst, -, hdst, rfl⟩ := exec_move_cases h
  · simp
  · have hne : r ≠ dst := by
      rintro rfl
      exact hr (by rw [← hdst, moveDst_toNat])
    simpa using Regs.read_write_other s.regs _ hne

/-- Settles O43: one register lemma per clause. -/
theorem registersWrittenByEachKind : Obligations.RegistersWrittenByEachKind := by
  intro i s t h
  refine ⟨fun hi => (exec_regs_out_of_ne_pop_print_move hi h).1, ?_, ?_⟩
  · rintro n (rfl | rfl) r hr
    · exact exec_pop_readReg h hr
    · exact exec_print_readReg h hr
  · rintro n rfl r hr
    exact exec_move_readReg h hr

/-! ### Reset -/

/-- Settles O1: the values stand in `State.reset`, and the host's reset answers it whatever the state. -/
theorem resetLeavesTheStatedValues : Obligations.ResetLeavesTheStatedValues := by
  refine ⟨fun r => ?_, rfl, rfl, rfl, rfl, rfl, rfl, rfl, fun _ => rfl⟩
  cases r <;> rfl

/-- Settles O54: the store and the output are empty at reset, and IDLE asks for exactly the values reset gives. -/
theorem invariantHoldsAtReset : Obligations.InvariantHoldsAtReset where
  programFits := Nat.two_pow_pos 64
  wordsWellFormed := fun _ hd => absurd hd List.not_mem_nil
  outputIsText := wellFormedText_nil _
  statusFits := ⟨⟨rfl, rfl, rfl, rfl⟩, rfl, rfl, rfl⟩

/-! ### Terminal statuses -/

/-- The statuses with no step that the host's load and run do not leave (10_state.md R21). -/
def Status.isTerminal (st : Status) : Prop :=
  st = .exited ∨ st = .faulted ∨ st = .loadFailed

theorem Status.isTerminal.ne_running {st : Status} (h : st.isTerminal) : st ≠ .running := by
  obtain rfl | rfl | rfl := h <;> decide

theorem Status.isTerminal.not_commandable {st : Status} (h : st.isTerminal) : ¬ (st = .idle ∨ st = .loaded) := by
  obtain rfl | rfl | rfl := h <;> decide

/-- A move of the host that answers a next state in a status that takes no command is the reset. -/
theorem hostMove_reset_of_not_commandable {m : HostMove} {s t : State}
    (hs : ¬ (s.status = .idle ∨ s.status = .loaded)) (h : hostMove m s = .next t) :
    m = .reset ∧ t = State.reset := by
  cases m with
  | reset => exact ⟨rfl, (Host.Outcome.next.inj h).symm⟩
  | load text => exact absurd (hostLoad_cases h).1 hs
  | run => exact absurd (hostRun_cases h).1 hs

/-- Settles O6: a step needs RUNNING, and load and run need IDLE or LOADED. -/
theorem onlyResetLeavesATerminalStatus : Obligations.OnlyResetLeavesATerminalStatus := by
  intro s (hs : s.status.isTerminal)
  exact ⟨fun _ h => hs.ne_running (step_cases h).1,
    fun _ _ h => hostMove_reset_of_not_commandable hs.not_commandable h, rfl⟩

end Sys2Proof.Machine
end

section
/-! PROOFS. The program store: no step writes it, and after a load it holds what the lines decode to
(20_memory.md R43). -/

namespace Sys2Proof

/-- Decoding the word of an Instruction gives the Instruction back. -/
@[simp] theorem decode_encode (i : Instr) : decode (encode i) = i := by
  simp [decode, encode, diwTag_append, diwImm_append, ofTag_tag]

/-- A text that decodes gives as many Instructions as it has lines. -/
theorem decodeText_ok_length {p : Params} {text : List Scalar} {is : List Instr} (h : decodeText p text = .ok is) :
    is.length = (splitLines p text).length := by
  simpa using (congrArg List.length ((decodeLines_ok_iff p _ is).mp h)).symm

/-- In a text that decodes, the Instruction at an address is what the line at that address decodes to. -/
theorem decodeText_ok_getElem? {p : Params} {text : List Scalar} {is : List Instr} {a : Nat} {line : Line}
    (h : decodeText p text = .ok is) (hl : (splitLines p text)[a]? = some line) :
    ∃ i, decodeLine p line = .ok i ∧ is[a]? = some i := by
  have ha := congrArg (·[a]?) ((decodeLines_ok_iff p _ is).mp h)
  simp only [List.getElem?_map, hl, Option.map_some] at ha
  obtain ⟨i, hi, he⟩ := Option.map_eq_some_iff.mp ha.symm
  exact ⟨i, he.symm, hi⟩

end Sys2Proof

namespace Sys2Proof.Machine

/-! ### Who writes the store -/

/-- No instruction writes the program store. -/
theorem exec_program {i : Instr} {s t : State} (h : exec i s = .next t) : t.program = s.program := by
  cases i with
  | pop n => obtain ⟨-, rfl⟩ | ⟨-, rfl⟩ := exec_pop_cases h <;> rfl
  | print n => obtain ⟨-, -, rfl⟩ | ⟨-, -, rfl⟩ | ⟨-, rfl⟩ := exec_print_cases h <;> rfl
  | move n => obtain ⟨id, rfl⟩ | ⟨src, dst, -, -, rfl⟩ := exec_move_cases h <;> rfl
  | push n | add n | mul n | input n | jump n | exit n | invalid n =>
    cases h
    rfl

/-- No step writes the program store. -/
theorem step_program {s t : State} (h : step s = .next t) : t.program = s.program := by
  obtain ⟨-, ⟨-, rfl⟩ | ⟨d, -, he⟩⟩ := step_cases h
  · rfl
  · exact exec_program he

/-- No run writes the program store. -/
theorem run_program {k : Nat} {s t : State} (h : Host.Core.run core k s = .next t) : t.program = s.program := by
  induction k generalizing s with
  | zero => cases h; rfl
  | succ k ih =>
    obtain ⟨u, hs, hr⟩ := run_succ_next h
    exact (ih hr).trans (step_program hs)

/-! ### What a load leaves in the store -/

/-- A load that ends LOADED stored the decoded lines of its text. -/
theorem hostLoad_loaded {text : List Scalar} {s l : State} (h : hostLoad text s = .next l) (hl : l.status = .loaded) :
    (splitLines params text).length < 2 ^ 64 ∧
      ∃ is, decodeText params text = .ok is ∧ l.program = is.map encode := by
  obtain ⟨-, hlt, ⟨is, hd, rfl⟩ | ⟨m, -, rfl⟩ | ⟨f, -, rfl⟩⟩ := hostLoad_cases h
  · exact ⟨hlt, is, hd, rfl⟩
  · cases hl
  · cases hl

/-- The word read at an address of a store of encoded Instructions decodes to the Instruction there. -/
theorem progRead_encoded {s : State} {is : List Instr} {a : Nat} {i : Instr} (hp : s.program = is.map encode)
    (ha : a < 2 ^ 64) (hi : is[a]? = some i) : (s.progRead (BitVec.ofNat 64 a)).map decode = some i := by
  rw [State.progRead, BitVec.toNat_ofNat, Nat.mod_eq_of_lt ha]
  simp [hp, hi]

/-- Settles O12: a step keeps the store, a load needs IDLE or LOADED, and the store a load filled is the one every
later fetch of the run reads. -/
theorem programStoreIsWrittenByLoadOnly : Obligations.ProgramStoreIsWrittenByLoadOnly := by
  refine ⟨fun _ _ _ => run_program, fun s text hs t h => ?_, ?_⟩
  · obtain ⟨hi | hl, -⟩ := hostLoad_cases h
    · exact absurd (hs.symm.trans hi) (by decide)
    · exact absurd (hs.symm.trans hl) (by decide)
  · intro text s l r t k a line hload hst hrun hk hline
    obtain ⟨hlt, is, hd, hlp⟩ := hostLoad_loaded hload hst
    obtain ⟨-, rfl⟩ := hostRun_cases hrun
    obtain ⟨i, hdi, hi⟩ := decodeText_ok_getElem? hd hline
    have ha : a < 2 ^ 64 := (List.getElem?_eq_some_iff.mp hline).1.trans hlt
    exact ⟨i, hdi, progRead_encoded ((run_program hk).trans hlp) ha hi⟩

end Sys2Proof.Machine
end

section
/-! PROOFS. The clauses of the invariant on the status, the fault record and the output, kept by every step of the
core (10_state.md R21, R22, 42_io.md R95, 60_exceptions.md R141 to R148). -/

namespace Sys2Proof.Machine

/-! ### The status and the rest, status by status -/

/-- While the core runs, a clear fault record is all the status asks for. -/
theorem statusExplained_iff_of_running {s : State} (h : s.status = .running) :
    statusExplained s ↔ s.noFaultRecorded := by
  simp only [statusExplained, h]

theorem statusExplained_of_running {s : State} (h : s.status = .running) (hn : s.noFaultRecorded) :
    statusExplained s :=
  (statusExplained_iff_of_running h).mpr hn

/-- Taking a run-time fault leaves a state that is explained as far as the fault record is. -/
theorem statusExplained_raise {k : FaultKind} {f : FaultInfo} {s : State} (hk : k.faultClass = .runTime)
    (h : faultRecordExplained (raise k f s)) : statusExplained (raise k f s) := by
  have hst : (raise k f s).status = .faulted := by rw [raise_status, hk]; rfl
  simpa only [statusExplained, hst] using h

/-- A Pop or Print past the bottom leaves an empty stack, its own record, and `pc` at itself. -/
theorem emptyStackError_explained {s : State} {n : Word} (hn : s.stack.length < n.toNat)
    (hf : s.fetched = some (.pop n) ∨ s.fetched = some (.print n)) :
    statusExplained (raise .emptyStackError .nothing (s.popped true s.stack.length)) := by
  have hne : n ≠ 0 := by
    rintro rfl
    exact Nat.not_lt_zero _ hn
  exact statusExplained_raise rfl ⟨rfl, by simp, n, hne, hf⟩

/-! ### The kinds with more than one outcome -/

section
variable {n : Word} {s t : State} (hr : s.status = .running) (hn : s.noFaultRecorded)
include hr hn

theorem exec_pop_statusExplained (hf : s.fetched = some (.pop n)) (h : exec (.pop n) s = .next t) :
    statusExplained t := by
  obtain ⟨-, rfl⟩ | ⟨hlt, rfl⟩ := exec_pop_cases h
  · exact statusExplained_of_running hr hn
  · exact emptyStackError_explained hlt (.inl hf)

theorem exec_print_statusExplained (hf : s.fetched = some (.print n)) (h : exec (.print n) s = .next t) :
    statusExplained t := by
  obtain ⟨-, -, rfl⟩ | ⟨-, -, rfl⟩ | ⟨hlt, rfl⟩ := exec_print_cases h
  · exact statusExplained_of_running hr hn
  · exact statusExplained_raise rfl ⟨rfl, n, hf⟩
  · exact emptyStackError_explained hlt (.inr hf)

theorem exec_move_statusExplained (hf : s.fetched = some (.move n)) (h : exec (.move n) s = .next t) :
    statusExplained t := by
  replace h : execMove n s = .next t := h
  obtain ⟨hid, e⟩ | ⟨src, hsrc, hid, e⟩ | ⟨src, dst, -, -, e⟩ := execMove_cases n s <;>
    obtain rfl := Host.Outcome.next.inj (e.symm.trans h)
  · exact statusExplained_raise rfl ⟨_, n, rfl, hid, hf, .inl rfl⟩
  · have hle : (moveSrc n).toNat ≤ 5 := by
      rw [hsrc]
      cases src <;> decide
    exact statusExplained_raise rfl ⟨_, n, rfl, hid, hf, .inr ⟨hle, rfl⟩⟩
  · exact statusExplained_of_running hr hn

/-! ### Every kind, and the step -/

/-- Executing the instruction at `pc` leaves a status that the fault record and the rest of the state explain. -/
theorem exec_statusExplained {i : Instr} (hf : s.fetched = some i) (h : exec i s = .next t) : statusExplained t := by
  cases i with
  | pop n => exact exec_pop_statusExplained hr hn hf h
  | print n => exact exec_print_statusExplained hr hn hf h
  | move n => exact exec_move_statusExplained hr hn hf h
  | push n | add n | mul n | jump n =>
    cases h
    exact statusExplained_of_running hr hn
  | input n =>
    cases h
    exact statusExplained_raise rfl ⟨rfl, n, hf⟩
  | invalid n =>
    cases h
    exact statusExplained_raise rfl ⟨rfl, n, hf⟩
  | exit n =>
    cases h
    exact ⟨hn, n, hf⟩

end

theorem step_statusExplained {s t : State} (hs : statusExplained s) (h : step s = .next t) : statusExplained t := by
  obtain ⟨hr, ⟨hout, rfl⟩ | ⟨d, hd, he⟩⟩ := step_cases h
  · exact statusExplained_raise rfl ⟨rfl, List.getElem?_eq_none_iff.mp hout⟩
  · have hf : s.fetched = some (decode d) := by rw [State.fetched, hd, Option.map_some]
    exact exec_statusExplained hr ((statusExplained_iff_of_running hr).mp hs) hf he

/-- What one step appends to the output is well-formed text. -/
theorem step_appends_text {s t : State} (h : step s = .next t) :
    ∃ bs, t.out = s.out ++ bs ∧ wellFormedText .utf8 bs = true := by
  obtain ⟨-, ⟨-, rfl⟩ | ⟨d, -, he⟩⟩ := step_cases h
  · exact ⟨[], by simp, wellFormedText_nil _⟩
  · obtain ⟨bs, hout, htext, -⟩ := outputGrowsByPrintOnly _ s t he
    exact ⟨bs, hout, htext⟩

/-- Settles O55: the store is not written, the output grows by text, and the status stays explained. -/
theorem stepKeepsTheInvariant : Obligations.StepKeepsTheInvariant := by
  intro s t hinv h
  obtain ⟨hfits, hwords, htext, hstatus⟩ := hinv
  obtain ⟨bs, hout, hbs⟩ := step_appends_text h
  exact
    { programFits := step_program h ▸ hfits
      wordsWellFormed := step_program h ▸ hwords
      outputIsText := hout ▸ wellFormedText_append _ htext hbs
      statusFits := step_statusExplained hstatus h }

end Sys2Proof.Machine
end

section
/-! PROOFS. Why a text does not decode, and the invariant kept by the moves of the host (30_encoding.md R66, R67,
50_fetch_execute.md R121). -/

namespace Sys2Proof

/-- Everything a line that does not decode can answer: the line, without exactly one delimiter; its operand field, with
a foreign symbol; or the refusal of a count past 64 bits. -/
theorem decodeLine_error_cases {p : Params} {l : Line} {e : DecodeError} (h : decodeLine p l = .error e) :
    (e = .invalidLine l ∧ l.count p.symDelim ≠ 1) ∨
      (e = .invalidImm (operandField p l) ∧ ∃ c ∈ operandField p l, c ≠ p.symC) ∨ e = .operandTooLong := by
  rw [decodeLine] at h
  split at h
  next =>
    split at h
    next =>
      split at h
      next => cases h
      next => exact .inr (.inr (Except.error.inj h).symm)
    next hu => exact .inr (.inl ⟨(Except.error.inj h).symm, by simpa [operandIsUnary] using hu⟩)
  next hs => exact .inl ⟨(Except.error.inj h).symm, by simpa [lineSplits] using hs⟩

/-- The error of a list of lines is the error of one of them. -/
theorem decodeLines_error_mem {p : Params} {ls : List Line} {e : DecodeError} (h : decodeLines p ls = .error e) :
    ∃ l ∈ ls, decodeLine p l = .error e := by
  induction ls with
  | nil => cases h
  | cons l ls ih =>
    rw [decodeLines] at h
    split at h
    next e' hl =>
      cases h
      exact ⟨l, List.mem_cons_self, hl⟩
    next i hl =>
      split at h
      next e' hls =>
        obtain ⟨m, hm, he⟩ := ih (hls.trans h)
        exact ⟨m, List.mem_cons_of_mem _ hm, he⟩
      next => cases h

theorem count_ne_one_of_invalidLine {p : Params} {text : List Scalar} {l : Line}
    (h : decodeText p text = .error (.invalidLine l)) : l.count p.symDelim ≠ 1 := by
  obtain ⟨m, -, hm⟩ := decodeLines_error_mem h
  obtain ⟨e, hne⟩ | ⟨e, -⟩ | e := decodeLine_error_cases hm
  · cases e
    exact hne
  · cases e
  · cases e

theorem exists_ne_symC_of_invalidImm {p : Params} {text : List Scalar} {f : Line}
    (h : decodeText p text = .error (.invalidImm f)) : ∃ c ∈ f, c ≠ p.symC := by
  obtain ⟨m, -, hm⟩ := decodeLines_error_mem h
  obtain ⟨e, -⟩ | ⟨e, hc⟩ | e := decodeLine_error_cases hm
  · cases e
  · cases e
    exact hc
  · cases e

end Sys2Proof

namespace Sys2Proof.Machine

/-- A core that waits for the host stands as reset left it, but for what was loaded. -/
theorem untouched_of_commandable {s : State} (h : s.status = .idle ∨ s.status = .loaded) (hs : statusExplained s) :
    s.untouched ∧ s.noFaultRecorded := by
  obtain hi | hl := h
  · simp only [statusExplained, hi] at hs
    exact ⟨hs.1, hs.2.2⟩
  · simpa only [statusExplained, hl] using hs

/-- A failed load leaves an empty store, the output as it was, and LOAD_FAILED. -/
theorem inv_loadFailure {k : FaultKind} {carried : Line} {s : State} (hinv : Inv s) (hu : s.untouched)
    (hk : k.faultClass = .decodeTime) (h : loadRecordExplained (loadFailure k carried s)) :
    Inv (loadFailure k carried s) where
  programFits := Nat.two_pow_pos 64
  wordsWellFormed := fun _ hd => absurd hd List.not_mem_nil
  outputIsText := hinv.outputIsText
  statusFits := by
    have hst : (loadFailure k carried s).status = .loadFailed := by rw [loadFailure, raise_status, hk]; rfl
    simpa only [statusExplained, hst] using ⟨hu, rfl, h⟩

theorem hostLoad_keeps_inv {text : List Scalar} {s t : State} (hinv : Inv s) (h : hostLoad text s = .next t) :
    Inv t := by
  obtain ⟨hc, hlt, hcases⟩ := hostLoad_cases h
  obtain ⟨hu, hn⟩ := untouched_of_commandable hc hinv.statusFits
  obtain ⟨is, hd, rfl⟩ | ⟨l, hd, rfl⟩ | ⟨f, hd, rfl⟩ := hcases
  · exact
      { programFits := by simpa [decodeText_ok_length hd] using hlt
        wordsWellFormed := List.forall_mem_map.mpr fun i _ => diwWellFormed_encode i
        outputIsText := hinv.outputIsText
        statusFits := ⟨hu, hn⟩ }
  · exact inv_loadFailure hinv hu rfl (.inl ⟨rfl, l, rfl, count_ne_one_of_invalidLine hd⟩)
  · exact inv_loadFailure hinv hu rfl (.inr ⟨rfl, f, rfl, exists_ne_symC_of_invalidImm hd⟩)

theorem hostRun_keeps_inv {s t : State} (hinv : Inv s) (h : hostRun s = .next t) : Inv t := by
  obtain ⟨hc, rfl⟩ := hostRun_cases h
  exact { hinv with statusFits := (untouched_of_commandable hc hinv.statusFits).2 }

/-- Settles O56: reset answers the reset state, and load and run each keep the invariant. -/
theorem hostMovesKeepTheInvariant : Obligations.HostMovesKeepTheInvariant := by
  intro m s t hinv h
  cases m with
  | reset =>
    obtain rfl := Host.Outcome.next.inj h
    exact invariantHoldsAtReset
  | load text => exact hostLoad_keeps_inv hinv h
  | run => exact hostRun_keeps_inv hinv h

end Sys2Proof.Machine
end

section
/-! PROOFS. The two encodings: what the Decoder answers on a line, and how decode and encode agree on words, on lines
and on texts (30_encoding.md R51 to R68). -/

namespace Sys2Proof

/-! ### The decoded instruction word -/

theorem diwTag_toNat (d : Diw) : (diwTag d).toNat = d.toNat / 2 ^ 64 := by
  rw [diwTag, BitVec.extractLsb'_toNat, Nat.shiftRight_eq_div_pow, Nat.mod_eq_of_lt]
  omega

theorem diwImm_eq_ofNat (d : Diw) : diwImm d = BitVec.ofNat 64 (d.toNat % 2 ^ 64) := by
  apply BitVec.eq_of_toNat_eq
  simp [diwImm]

/-- A decoded instruction word is its tag and its immediate. -/
theorem diwTag_append_diwImm (d : Diw) : diwTag d ++ diwImm d = d := by
  apply BitVec.eq_of_toNat_eq
  rw [BitVec.toNat_append, ← Nat.shiftLeft_add_eq_or_of_lt (diwImm d).isLt, Nat.shiftLeft_eq, diwTag_toNat,
    diwImm_eq_ofNat, BitVec.toNat_ofNat, Nat.mod_mod]
  exact Nat.div_add_mod' _ _

/-- A tag that a line produces is the tag of its kind. -/
theorem tag_ofTag : ∀ t : BitVec 4, t.toNat ≤ 9 → (Kind.ofTag t).tag = t := by
  decide

/-- The reserved tags are read as Invalid (the spec's D7). -/
theorem ofTag_reserved : ∀ t : BitVec 4, 10 ≤ t.toNat → Kind.ofTag t = .invalid := by
  decide

/-- Settles O46: a word is its tag and its immediate, and the tags up to 9 are those of the kinds. -/
theorem wordDecodeAndEncodeAgree : Obligations.WordDecodeAndEncodeAgree := by
  refine ⟨decode_encode, fun d hd => ?_, fun d hd => ?_⟩
  · rw [← diwTag_toNat] at hd
    rw [encode, decode, kind_ofKind, operand_ofKind, tag_ofTag _ hd, diwTag_append_diwImm]
  · rw [← diwTag_toNat] at hd
    rw [decode, ofTag_reserved _ hd, diwImm_eq_ofNat]
    rfl

/-! ### The opcode map -/

theorem params_wellFormed : params.wellFormed = true := by
  decide

theorem symDelim_ne_symC {p : Params} (hp : p.wellFormed = true) : p.symDelim ≠ p.symC := by
  simp only [Params.wellFormed, Params.delimIsSentinel, Bool.and_eq_true, bne_iff_ne] at hp
  obtain ⟨⟨⟨⟨-, hC⟩, -⟩, -⟩, -⟩ := hp
  exact hC

/-- An opcode field that is no kind's pattern is read as Invalid. -/
theorem kindOfField_eq_invalid {p : Params} {f : Line} (h : ∀ k : Kind, k ≠ .invalid → f ≠ k.field p) :
    kindOfField p f = .invalid :=
  by_contra fun hk => h _ hk (field_of_kindOfField p f hk)

/-! ### What the Decoder answers on a line -/

/-- A line made of an opcode field and k times `SYM_C` decodes to the field's kind with operand k. -/
theorem decodeLine_unary {p : Params} (hp : p.wellFormed = true) {opf : Line} (ho : p.symDelim ∉ opf) {k : Nat}
    (hk : k < 2 ^ 64) :
    decodeLine p (opf ++ p.symDelim :: List.replicate k p.symC) =
      .ok (Instr.ofKind (kindOfField p opf) (BitVec.ofNat 64 k)) := by
  have hi : p.symDelim ∉ List.replicate k p.symC := fun hm => symDelim_ne_symC hp (List.eq_of_mem_replicate hm)
  have hfits : operandFits (List.replicate k p.symC) = true := by simpa [operandFits] using hk
  have hunary : operandIsUnary p (List.replicate k p.symC) = true := by simp [operandIsUnary]
  rw [decodeLine, lineSplits_mk p opf _ ho hi, operandField_mk p opf _ ho, opcodeField_mk p opf _ ho, hunary, hfits]
  simp

/-- A line of two fields with anything but `SYM_C` in the second raises InvalidImm carrying that field. -/
theorem decodeLine_foreign {p : Params} {opf imf : Line} (ho : p.symDelim ∉ opf) (hi : p.symDelim ∉ imf)
    (hf : ∃ c ∈ imf, c ≠ p.symC) : decodeLine p (opf ++ p.symDelim :: imf) = .error (.invalidImm imf) := by
  have hu : operandIsUnary p imf = false := by simpa [operandIsUnary] using hf
  rw [decodeLine, lineSplits_mk p opf imf ho hi, operandField_mk p opf imf ho, hu]
  simp

theorem decodeLine_of_not_twoFields {p : Params} {l : Line} (h : lineHasTwoFields p l = false) :
    decodeLine p l = .error (.invalidLine l) :=
  if_neg (Bool.eq_false_iff.mp h)

/-- InvalidLine is raised on exactly the lines without one delimiter, and carries the line. -/
theorem decodeLine_eq_invalidLine_iff {p : Params} {l m : Line} :
    decodeLine p l = .error (.invalidLine m) ↔ m = l ∧ l.count p.symDelim ≠ 1 := by
  constructor
  · intro h
    obtain ⟨e, hne⟩ | ⟨e, -⟩ | e := decodeLine_error_cases h
    · cases e
      exact ⟨rfl, hne⟩
    · cases e
    · cases e
  · rintro ⟨rfl, hne⟩
    exact decodeLine_of_not_twoFields (by simpa [lineHasTwoFields] using hne)

/-- On a line with two fields the Decoder checks the tail of the line. -/
theorem decodeLine_of_twoFields {p : Params} {l : Line} (h : lineHasTwoFields p l = true) :
    decodeLine p l =
      if lineTailIsUnary p l then
        if lineTailFits p l then
          .ok (Instr.ofKind (kindOfField p (opcodeField p l)) (BitVec.ofNat 64 (lineTail p l).length))
        else .error .operandTooLong
      else .error (.invalidImm (lineTail p l)) := by
  have hs : lineSplits p l = true := h
  rw [decodeLine, if_pos hs, operandField_eq_lineTail p l h]
  rfl

theorem decodeLine_of_not_unary {p : Params} {l : Line} (h : lineHasTwoFields p l = true)
    (hu : lineTailIsUnary p l = false) : decodeLine p l = .error (.invalidImm (lineTail p l)) := by
  simp [decodeLine_of_twoFields h, hu]

theorem decodeLine_of_wellFormed {p : Params} {l : Line} (h : lineWellFormed p l = true) :
    ∃ i, decodeLine p l = .ok i := by
  simp only [lineWellFormed, Bool.and_eq_true] at h
  obtain ⟨⟨h2, hu⟩, hf⟩ := h
  exact ⟨_, by rw [decodeLine_of_twoFields h2, if_pos hu, if_pos hf]⟩

/-- A line that decodes is its opcode field, the delimiter and its operand many times `SYM_C`; the field decides the
kind. -/
theorem line_of_decodeLine_ok {p : Params} {l : Line} {i : Instr} (h : decodeLine p l = .ok i) :
    l = opcodeField p l ++ p.symDelim :: List.replicate i.operand.toNat p.symC ∧
      kindOfField p (opcodeField p l) = i.kind := by
  rw [decodeLine] at h
  split at h
  next hs =>
    split at h
    next hu =>
      split at h
      next hf =>
        obtain rfl := Except.ok.inj h
        have hlt : (operandField p l).length < 2 ^ 64 := by simpa [operandFits] using hf
        have hrep : operandField p l = List.replicate (operandField p l).length p.symC :=
          List.eq_replicate_iff.mpr ⟨rfl, by simpa [operandIsUnary] using hu⟩
        rw [operand_ofKind, kind_ofKind, BitVec.toNat_ofNat, Nat.mod_eq_of_lt hlt, ← hrep]
        exact ⟨(line_of_splits p l hs).1, rfl⟩
      next => cases h
    next => cases h
  next => cases h

/-! ### The statements about lines -/

/-- Settles O47: the encoder's line has two fields, the kind's pattern and the operand many times `SYM_C`. -/
theorem lineDecodeOfEncodeIsIdentity : Obligations.LineDecodeOfEncodeIsIdentity := by
  intro p hp i
  rw [encodeLine, decodeLine_unary hp (delim_not_mem_field p hp i.kind) i.operand.isLt, kindOfField_field p hp,
    BitVec.ofNat_toNat, BitVec.setWidth_eq, ofKind_kind_operand]

/-- Settles O48: a field read as a kind other than Invalid is the kind's one pattern. -/
theorem lineOfAnInstructionIsUnique : Obligations.LineOfAnInstructionIsUnique := by
  intro l i hi
  constructor
  · intro h
    obtain ⟨hl, hk⟩ := line_of_decodeLine_ok h
    have hne : i.kind ≠ .invalid := fun he => hi i.operand (by rw [← ofKind_kind_operand i, he]; rfl)
    have hfield := field_of_kindOfField params (opcodeField params l) (hk ▸ hne)
    rw [hk] at hfield
    rw [encodeLine, ← hfield]
    exact hl
  · rintro rfl
    exact lineDecodeOfEncodeIsIdentity params params_wellFormed i

/-- Settles O49: case by case of the line's three checks, in the order the Decoder makes them. -/
theorem decoderAcceptsExactlyWellFormedLines : Obligations.DecoderAcceptsExactlyWellFormedLines := by
  intro l
  rw [lineWellFormed]
  cases h2 : lineHasTwoFields params l with
  | false => simp [decodeLine_of_not_twoFields h2]
  | true =>
    rw [decodeLine_of_twoFields h2]
    cases hu : lineTailIsUnary params l with
    | false => simp
    | true => cases hf : lineTailFits params l <;> simp

/-- Settles O51: on a line put together from its two fields, the operand field is what the Decoder counts or rejects. -/
theorem immediateIsTheCountOfSymbolC : Obligations.ImmediateIsTheCountOfSymbolC := by
  intro opf imf ho hi
  constructor
  · rintro k rfl hk
    refine ⟨_, decodeLine_unary params_wellFormed ho hk, ?_⟩
    rw [operand_ofKind, BitVec.toNat_ofNat, Nat.mod_eq_of_lt hk]
  · exact decodeLine_foreign ho hi

/-- Settles O52: each of the nine patterns is read as its kind, and any other field is none of them. -/
theorem opcodeFieldSelectsTheKind : Obligations.OpcodeFieldSelectsTheKind := by
  rintro opf k n rfl ho
  rw [decodeLine_unary params_wellFormed ho n.isLt, BitVec.ofNat_toNat, BitVec.setWidth_eq]
  dsimp only
  split_ifs with hpush hpop hadd hmul hprint hinput hjump hmove hexit
  case neg =>
    have hinvalid : kindOfField params opf = .invalid := kindOfField_eq_invalid fun k hk => by
      cases k
      case invalid => exact absurd rfl hk
      all_goals assumption
    rw [hinvalid]
    rfl
  all_goals
    subst opf
    rfl

/-- Settles O45: the words by their tags and immediates, the lines by the Decoder. -/
theorem writtenOutEncodingsDecode : Obligations.WrittenOutEncodingsDecode := by
  unfold Obligations.WrittenOutEncodingsDecode
  decide

/-! ### Texts and their lines -/

/-- A scalar value other than `LINE_SEP` in front of a text joins the text's first line. -/
theorem splitLines_cons_of_ne {p : Params} {c : Scalar} (hc : c ≠ p.lineSep) (cs : List Scalar) :
    ∃ l ls, splitLines p cs = l :: ls ∧ splitLines p (c :: cs) = (c :: l) :: ls := by
  obtain ⟨l, ls, h⟩ := List.exists_cons_of_ne_nil (splitLines_ne_nil p cs)
  exact ⟨l, ls, h, by rw [splitLines, if_neg hc, h]⟩

theorem splitLines_cons_sep (p : Params) (cs : List Scalar) :
    splitLines p (p.lineSep :: cs) = [] :: splitLines p cs :=
  if_pos rfl

theorem splitLines_length (p : Params) (text : List Scalar) :
    (splitLines p text).length = text.count p.lineSep + 1 := by
  induction text with
  | nil => rfl
  | cons c cs ih =>
    by_cases hc : c = p.lineSep
    · rw [hc, splitLines_cons_sep, List.length_cons, ih, List.count_cons_self]
    · obtain ⟨l, ls, hs, hcs⟩ := splitLines_cons_of_ne hc cs
      rw [hcs, List.count_cons_of_ne hc, ← ih, hs]
      rfl

theorem lineSep_not_mem_of_mem_splitLines (p : Params) (text : List Scalar) :
    ∀ l ∈ splitLines p text, p.lineSep ∉ l := by
  induction text with
  | nil => simp [splitLines]
  | cons c cs ih =>
    by_cases hc : c = p.lineSep
    · rw [hc, splitLines_cons_sep]
      exact List.forall_mem_cons.mpr ⟨List.not_mem_nil, ih⟩
    · obtain ⟨l, ls, hs, hcs⟩ := splitLines_cons_of_ne hc cs
      rw [hs, List.forall_mem_cons] at ih
      rw [hcs, List.forall_mem_cons, List.mem_cons, not_or]
      exact ⟨⟨Ne.symm hc, ih.1⟩, ih.2⟩

theorem joinLines_nil_cons (p : Params) {ls : List Line} (h : ls ≠ []) :
    joinLines p ([] :: ls) = p.lineSep :: joinLines p ls := by
  obtain ⟨m, ms, rfl⟩ := List.exists_cons_of_ne_nil h
  rfl

theorem joinLines_cons_cons (p : Params) (c : Scalar) (l : Line) (ls : List Line) :
    joinLines p ((c :: l) :: ls) = c :: joinLines p (l :: ls) := by
  cases ls <;> rfl

theorem joinLines_splitLines (p : Params) (text : List Scalar) : joinLines p (splitLines p text) = text := by
  induction text with
  | nil => rfl
  | cons c cs ih =>
    by_cases hc : c = p.lineSep
    · rw [hc, splitLines_cons_sep, joinLines_nil_cons p (splitLines_ne_nil p cs), ih]
    · obtain ⟨l, ls, hs, hcs⟩ := splitLines_cons_of_ne hc cs
      rw [hcs, joinLines_cons_cons, ← hs, ih]

/-- Settles O53: three inductions over the text. -/
theorem textIsItsLinesJoined : Obligations.TextIsItsLinesJoined := fun text =>
  ⟨splitLines_length params text, lineSep_not_mem_of_mem_splitLines params text, joinLines_splitLines params text⟩

/-- The lines of an encoded program are the lines of its Instructions. -/
theorem splitLines_encodeText {p : Params} (hp : p.wellFormed = true) {is : List Instr} (hne : is ≠ []) :
    splitLines p (encodeText p is) = is.map (encodeLine p) :=
  splitLines_joinLines p _ (by simpa using hne)
    (List.forall_mem_map.mpr fun i _ => lineSep_not_mem_encodeLine p hp i)

/-- The Decoder undoes the encoder on a program's text. -/
theorem decodeText_encodeText {p : Params} (hp : p.wellFormed = true) {is : List Instr} (hne : is ≠ []) :
    decodeText p (encodeText p is) = .ok is := by
  rw [decodeText, splitLines_encodeText hp hne, decodeLines_ok_iff, List.map_map]
  exact List.map_congr_left fun i _ => lineDecodeOfEncodeIsIdentity p hp i

end Sys2Proof

namespace Sys2Proof.Machine

/-! ### What a load of a text of fewer than 2^64 lines answers -/

theorem programIsTooLong_of_lt {n : Nat} (h : n < 2 ^ 64) : programIsTooLong params n = false :=
  Bool.eq_false_iff.mpr ((programIsTooLong_iff n).not.mpr (Nat.not_le_of_lt h))

section
variable {text : List Scalar} {s : State} (hs : s.status = .idle ∨ s.status = .loaded)
  (hlt : (splitLines params text).length < 2 ^ 64)
include hs hlt

theorem hostMove_load_ok {is : List Instr} (hd : decodeText params text = .ok is) :
    hostMove (.load text) s = .next { s with program := is.map encode, status := .loaded } := by
  simp [hostMove, hostLoad, loadWith, (hostMayCommand_iff s).mpr hs, programIsTooLong_of_lt hlt, hd]

theorem hostMove_load_invalidLine {l : Line} (hd : decodeText params text = .error (.invalidLine l)) :
    hostMove (.load text) s = .next (loadFailure .invalidLine l s) := by
  simp [hostMove, hostLoad, loadWith, (hostMayCommand_iff s).mpr hs, programIsTooLong_of_lt hlt, hd]

theorem hostMove_load_invalidImm {f : Line} (hd : decodeText params text = .error (.invalidImm f)) :
    hostMove (.load text) s = .next (loadFailure .invalidImm f s) := by
  simp [hostMove, hostLoad, loadWith, (hostMayCommand_iff s).mpr hs, programIsTooLong_of_lt hlt, hd]

end

/-! ### The statements about loads -/

/-- Settles O3: the lines decode as a whole, and each word of the store decodes to its Instruction. -/
theorem loadStoresTheDecodedLines : Obligations.LoadStoresTheDecodedLines := by
  intro text is s hs hlt hmap
  have hd : decodeText params text = .ok is := (decodeLines_ok_iff params _ is).mpr hmap
  have hlen := decodeText_ok_length hd
  refine ⟨_, hostMove_load_ok hs hlt hd, rfl, by simpa using hlen, fun a i hi => ?_⟩
  have ha : a < is.length := (List.getElem?_eq_some_iff.mp hi).1
  exact progRead_encoded rfl (ha.trans (hlen ▸ hlt)) hi

/-- Settles O4: the lines before the bad one decode, so the bad one's error is the text's. -/
theorem loadFailsAtTheFirstBadLine : Obligations.LoadFailsAtTheFirstBadLine := by
  intro text good bad rest s hs hlt hsplit hgood
  have herr : ∀ e, decodeLine params bad = .error e → decodeText params text = .error e := fun e he => by
    rw [decodeText, hsplit]
    exact decodeLines_error params good bad rest e (fun l hl => decodeLine_of_wellFormed (hgood l hl)) he
  exact ⟨fun h2 => hostMove_load_invalidLine hs hlt (herr _ (decodeLine_of_not_twoFields h2)),
    fun h2 hu => hostMove_load_invalidImm hs hlt (herr _ (decodeLine_of_not_unary h2 hu))⟩

/-- Settles O5: the encoder's lines hold no separator, so the text is cut back into them, and each decodes to its
Instruction. -/
theorem encodedTextLoadsBack : Obligations.EncodedTextLoadsBack := by
  intro is s hne hlt hs
  refine hostMove_load_ok hs ?_ (decodeText_encodeText params_wellFormed hne)
  rwa [splitLines_encodeText params_wellFormed hne, List.length_map]

/-- Settles O50: such a line answers InvalidLine, the first line's error is the load's, and LOAD_FAILED is left by
neither run nor a step. -/
theorem lineWithoutOneDelimiterFails : Obligations.LineWithoutOneDelimiterFails := by
  refine ⟨fun l => ⟨?_, fun h => ?_⟩, fun l => ?_, fun l m h => (decodeLine_eq_invalidLine_iff.mp h).1, ?_⟩
  · rintro ⟨opf, imf, rfl, ho, hi⟩
    exact eq_of_beq (lineSplits_mk params opf imf ho hi)
  · exact ⟨_, _, line_of_splits params l (beq_iff_eq.mpr h)⟩
  · rw [decodeLine_eq_invalidLine_iff, and_iff_right rfl]
  · intro text l s hs hlt hl hne
    obtain ⟨rest, hsplit⟩ : ∃ rest, splitLines params text = l :: rest := by
      rw [← List.head?_eq_getElem?, List.head?_eq_some_iff] at hl
      exact hl
    have hd : decodeText params text = .error (.invalidLine l) := by
      rw [decodeText, hsplit]
      exact decodeLines_error params [] l rest _ (by simp) (decodeLine_eq_invalidLine_iff.mpr ⟨rfl, hne⟩)
    have hterm : (loadFailure .invalidLine l s).status.isTerminal := .inr (.inr rfl)
    exact ⟨_, hostMove_load_invalidLine hs hlt hd, rfl, rfl, rfl,
      fun _ h => hterm.not_commandable (hostRun_cases h).1, fun _ h => hterm.ne_running (step_cases h).1⟩

end Sys2Proof.Machine
end

section
/-! PROOFS. The operand stack: Push and Pop (40_stack.md), and the two faults that other parameters would add to Push,
Add and Mul (40_stack.md R81, 60_exceptions.md R146). -/

namespace Sys2Proof.Machine

/-! ### The shape Push, Add and Mul share, under a finite capacity -/

section
variable {p : Params} {c : Nat} (hp : p.stackCapacity = some c) {s : State}
include hp

theorem pushAndAdvance_full (v : Word) (hs : c ≤ s.stack.length) :
    pushAndAdvance p v s = .next (raise .stackOverflowFault .nothing s) :=
  if_pos ((stackIsFull_iff hp s).mpr hs)

theorem pushAndAdvance_room (v : Word) (hs : s.stack.length < c) :
    pushAndAdvance p v s = .next (s.stackPush v).advance :=
  if_neg ((stackIsFull_iff hp s).not.mpr (Nat.not_le_of_lt hs))

end

/-- An Add that takes no overflow fault is a push of the sum. -/
theorem addWith_eq_pushAndAdvance {p : Params} {n : Word} {s : State}
    (h : p.addOverflow = .wrap ∨ (s.readReg .r1).toNat + n.toNat < 2 ^ 64) :
    addWith p n s = pushAndAdvance p (s.readReg .r1 + n) s := by
  refine if_neg fun ⟨hfault, hpass⟩ => ?_
  obtain hwrap | hfits := h
  · exact absurd (hwrap.symm.trans hfault) (by decide)
  · exact Nat.not_le_of_lt hfits ((sumPasses64Bits_iff _ _).mp hpass)

theorem addWith_overflow {p : Params} {n : Word} {s : State} (hp : p.addOverflow = .fault)
    (h : 2 ^ 64 ≤ (s.readReg .r1).toNat + n.toNat) :
    addWith p n s = .next (raise .arithmeticOverflowFault .nothing s) :=
  if_pos ⟨hp, (sumPasses64Bits_iff _ _).mpr h⟩

/-- Settles O20: the stack check decides Push, Mul and an Add without overflow; the test of the sum comes before it. -/
theorem parameterFaultsOfPushAddMul : Obligations.ParameterFaultsOfPushAddMul := by
  refine ⟨fun p c n s hp hs => ⟨?_, ?_, fun hadd => ?_⟩, fun p c n s hp hs => ⟨?_, ?_, fun hadd => ?_⟩,
    fun p n s => addWith_overflow⟩
  · exact pushAndAdvance_full hp n hs
  · exact pushAndAdvance_full hp _ hs
  · exact (addWith_eq_pushAndAdvance hadd).trans (pushAndAdvance_full hp _ hs)
  · exact (pushAndAdvance_room hp n hs).trans (exec_push n s).symm
  · exact (pushAndAdvance_room hp _ hs).trans (exec_mul n s).symm
  · exact ((addWith_eq_pushAndAdvance hadd).trans (pushAndAdvance_room hp _ hs)).trans (exec_add n s).symm

/-! ### Pop -/

theorem exec_pop_within {n : Word} {s : State} (h : n.toNat ≤ s.stack.length) :
    exec (.pop n) s = .next (s.popped true n.toNat).advance :=
  (execPop_eq n s).trans (if_pos h)

theorem exec_pop_past {n : Word} {s : State} (h : s.stack.length < n.toNat) :
    exec (.pop n) s = .next (raise .emptyStackError .nothing (s.popped true s.stack.length)) :=
  (execPop_eq n s).trans (if_neg (Nat.not_le_of_lt h))

/-- Popping the whole depth empties the stack, and the last value popped is the bottom one. -/
theorem popped_depth (b : Bool) (s : State) :
    s.popped b s.stack.length = { s with stack := [], regs := scratchAfter b s.stack s.regs } := by
  simp [State.popped]

/-- Settles O21: past the bottom the fault's status has no step, and within the depth the stack is cut after its first
n elements. -/
theorem popRemovesExactlyItsCount : Obligations.PopRemovesExactlyItsCount := by
  refine fun n s => ⟨fun h => ?_, fun h => ?_⟩
  · refine ⟨_, exec_pop_past h, rfl, rfl, ?_⟩
    exact (onlyResetLeavesATerminalStatus _ (.inr (.inl rfl))).1
  · exact ⟨_, s.stack.take n.toNat, exec_pop_within h, rfl, (List.take_append_drop _ _).symm,
      List.length_take_of_le h⟩

/-- Settles O22: `scratchAfter` writes `x[0]` alone, and `advance` the program counter alone. -/
theorem popNetEffect : Obligations.PopNetEffect :=
  fun _ _ h => exec_pop_within h

/-- Settles O23: the fault is taken in the state the whole stack was popped from. -/
theorem popPastTheBottom : Obligations.PopPastTheBottom := by
  intro n s h
  rw [exec_pop_past h, popped_depth]
  rfl

/-! ### Push, and Push followed by Pop -/

/-- Settles O14: Push is `stackPush` and `advance`. -/
theorem pushAppendsItsOperand : Obligations.PushAppendsItsOperand :=
  exec_push

/-- Settles O15: after the Push the stack has an element, and the Pop takes that one off it. -/
theorem pushThenPopRestoresTheStack : Obligations.PushThenPopRestoresTheStack := by
  intro n s
  have hdepth : (1 : Word).toNat ≤ (s.stackPush n).advance.stack.length := Nat.succ_le_succ (Nat.zero_le _)
  exact ⟨_, _, exec_push n s, exec_pop_within hdepth, rfl, rfl, rfl, BitVec.add_assoc _ _ _⟩

end Sys2Proof.Machine
end

section
/-! PROOFS. The arithmetic: what Add and Mul push (41_arith.md). -/

namespace Sys2Proof.Machine

/-- Add and Push answer the same for the wrapped sum, whether or not the sum fits (41_arith.md R86). -/
theorem exec_add_eq_exec_push (n : Word) (s : State) : exec (.add n) s = exec (.push (s.readReg .r1 + n)) s := by
  rw [exec_add, exec_push]

/-- Settles O16: Add is a push of the word sum, whose value is the exact sum when that fits. -/
theorem addIsPushOfTheSum : Obligations.AddIsPushOfTheSum := by
  intro n s hfits
  refine ⟨?_, _, _, exec_add n s, by simp, by simp, BitVec.toNat_add_of_lt hfits⟩
  rw [exec_add_eq_exec_push, BitVec.add_def]

/-- Settles O17: Add pushes the word sum, which is the exact sum modulo 2^64. -/
theorem addPushesTheSumModulo64Bits : Obligations.AddPushesTheSumModulo64Bits := by
  intro n s
  have hsum : s.readReg .r1 + n = BitVec.ofNat 64 (((s.readReg .r1).toNat + n.toNat) % 2 ^ 64) :=
    BitVec.eq_of_toNat_eq (by simp)
  rw [exec_add, hsum]
  rfl

/-- Settles O18: Mul pushes the word product, which is the exact product modulo 2^64. -/
theorem mulPushesTheProductModulo64Bits : Obligations.MulPushesTheProductModulo64Bits := by
  intro n s
  have hproduct : s.readReg .r1 * n = BitVec.ofNat 64 (((s.readReg .r1).toNat * n.toNat) % 2 ^ 64) :=
    BitVec.eq_of_toNat_eq (by simp)
  rw [exec_mul, hproduct]
  rfl

/-- A Mul completes with the word product on top of the stack. -/
theorem exec_mul_pushes {n v : Word} {s : State} (hv : s.readReg .r1 * n = v) :
    ∃ t, exec (.mul n) s = .next t ∧ t.stack = v :: s.stack :=
  ⟨_, exec_mul n s, hv ▸ rfl⟩

/-- Settles O19: zero absorbs and one is neutral in the product of words. -/
theorem mulByZeroAndByOne : Obligations.MulByZeroAndByOne := by
  refine fun n s => ⟨fun hzero => exec_mul_pushes ?_, fun hone => exec_mul_pushes ?_,
    exec_mul_pushes BitVec.mul_zero⟩
  · rw [hzero]
    exact BitVec.zero_mul
  · rw [hone]
    exact BitVec.one_mul n

end Sys2Proof.Machine
end

section
/-! PROOFS. The text check against its table, and Print and Input (42_io.md). -/

namespace Sys2Proof.Machine

/-! ### The scan and the rows it reads by -/

theorem ByteRange.holds_iff (r : ByteRange) (b : Byte) :
    r.holds b = true ↔ r.lo.toNat ≤ b.toNat ∧ b.toNat ≤ r.hi.toNat :=
  decide_eq_true_iff

/-- The bytes are as many as the ranges, each in its range: what R95 asks of one sequence. -/
def Fills (ranges : List ByteRange) (bs : List Byte) : Prop :=
  List.Forall₂ (fun r b => r.lo.toNat ≤ b.toNat ∧ b.toNat ≤ r.hi.toNat) ranges bs

/-- Bytes that fill the ranges owed complete the sequence in hand. -/
theorem scanText_of_fills (rows : List TextRow) {owed : List ByteRange} {bs : List Byte} (h : Fills owed bs) :
    scanText rows owed bs = true := by
  induction h with
  | nil => rfl
  | cons hb _ ih => simp [scanText, (ByteRange.holds_iff _ _).mpr hb, ih]

/-- Text the scan accepts is what fills the ranges owed, and then sequences that each fill a row. -/
theorem exists_sequences_of_scanText {rows : List TextRow} {owed : List ByteRange} {bs : List Byte}
    (h : scanText rows owed bs = true) :
    ∃ q seqs, bs = q ++ List.flatten seqs ∧ Fills owed q ∧
      ∀ p ∈ seqs, ∃ row ∈ rows, Fills (row.first :: row.rest) p := by
  induction bs generalizing owed with
  | nil =>
    cases owed with
    | nil => exact ⟨[], [], rfl, .nil, by simp⟩
    | cons r owed => cases h
  | cons b bs ih =>
    cases owed with
    | nil =>
      rw [scanText] at h
      split at h
      next => cases h
      next row hfind =>
        obtain ⟨q, seqs, rfl, hq, hseqs⟩ := ih h
        have hb : row.first.holds b = true := by simpa using List.find?_some hfind
        refine ⟨[], (b :: q) :: seqs, rfl, .nil, List.forall_mem_cons.mpr ⟨?_, hseqs⟩⟩
        exact ⟨row, List.mem_of_find?_eq_some hfind, .cons ((ByteRange.holds_iff _ _).mp hb) hq⟩
    | cons r owed =>
      rw [scanText, Bool.and_eq_true] at h
      obtain ⟨hb, hrest⟩ := h
      obtain ⟨q, seqs, rfl, hq, hseqs⟩ := ih hrest
      exact ⟨b :: q, seqs, rfl, .cons ((ByteRange.holds_iff _ _).mp hb) hq, hseqs⟩

/-- R95's table stands in the order of the first bytes, so no byte opens two rows. -/
theorem utf8Rows_pairwise_lt : utf8Rows.Pairwise (fun a b => a.first.hi.toNat < b.first.lo.toNat) := by
  decide

/-- The scan opens the only row that the byte can open. -/
theorem find?_row_of_holds {rows : List TextRow}
    (hrows : rows.Pairwise (fun a b => a.first.hi.toNat < b.first.lo.toNat)) {row : TextRow} (hmem : row ∈ rows)
    {b : Byte} (hb : row.first.holds b = true) : rows.find? (fun r => r.first.holds b) = some row := by
  obtain ⟨before, after, rfl⟩ := List.append_of_mem hmem
  refine List.find?_eq_some_iff_append.mpr ⟨hb, before, after, rfl, fun a ha => ?_⟩
  have hlt : a.first.hi.toNat < row.first.lo.toNat :=
    (List.pairwise_append.mp hrows).2.2 a ha row List.mem_cons_self
  have hlo := ((ByteRange.holds_iff _ _).mp hb).1
  have hnot : ¬ a.first.holds b = true := fun h => by
    have hhi := ((ByteRange.holds_iff _ _).mp h).2
    omega
  simpa using hnot

/-- One sequence that fills a row is well-formed text. -/
theorem wellFormedText_of_fills_row {row : TextRow} (hrow : row ∈ utf8Rows) {q : List Byte}
    (hq : Fills (row.first :: row.rest) q) : wellFormedText .utf8 q = true := by
  cases hq with
  | cons hb hrest =>
    have hfind := find?_row_of_holds utf8Rows_pairwise_lt hrow ((ByteRange.holds_iff _ _).mpr hb)
    simp only [wellFormedText, textRows, scanText, hfind]
    exact scanText_of_fills _ hrest

theorem wellFormedText_flatten (e : TextEncoding) {seqs : List (List Byte)}
    (h : ∀ q ∈ seqs, wellFormedText e q = true) : wellFormedText e seqs.flatten = true := by
  induction seqs with
  | nil => exact wellFormedText_nil e
  | cons q seqs ih =>
    obtain ⟨hq, hseqs⟩ := List.forall_mem_cons.mp h
    exact wellFormedText_append e hq (ih hseqs)

/-- Settles O30: the scan cuts the text into the sequences it completes, and accepts each sequence because its first
byte opens no other row. -/
theorem wellFormedTextIsTheTablesConcatenations : Obligations.WellFormedTextIsTheTablesConcatenations := by
  refine fun bs => ⟨fun h => ?_, ?_⟩
  · obtain ⟨q, seqs, rfl, hq, hseqs⟩ := exists_sequences_of_scanText h
    cases hq
    exact ⟨seqs, rfl, hseqs⟩
  · rintro ⟨seqs, rfl, hseqs⟩
    refine wellFormedText_flatten _ fun q hq => ?_
    obtain ⟨row, hrow, hfill⟩ := hseqs q hq
    exact wellFormedText_of_fills_row hrow hfill

/-- Bytes below 0x80 are sequences of one byte each, by the first row of R95's table. -/
theorem wellFormedText_of_plain {bs : List Byte} (h : ∀ b ∈ bs, b.toNat < 128) :
    wellFormedText .utf8 bs = true := by
  have hcut : bs = (bs.map fun b => [b]).flatten := by simp [← List.flatMap_def]
  refine (wellFormedTextIsTheTablesConcatenations bs).mpr ⟨_, hcut, List.forall_mem_map.mpr fun b hb => ?_⟩
  exact ⟨⟨⟨0x00, 0x7F⟩, []⟩, List.mem_cons_self, .cons ⟨Nat.zero_le _, Nat.le_of_lt_succ (h b hb)⟩ .nil⟩

/-! ### Print, under any parameters -/

section
variable {p : Params} {n : Word} {s : State}

theorem printWith_text (h : n.toNat ≤ s.stack.length) (ht : wellFormedText p.textEncoding (s.printBytes n) = true) :
    printWith p n s = .next ((s.popped p.printWritesScratch n.toNat).outWrite (s.printBytes n)).advance :=
  (printWith_eq p n s).trans ((if_pos h).trans (if_pos ht))

theorem printWith_illFormed (h : n.toNat ≤ s.stack.length)
    (ht : wellFormedText p.textEncoding (s.printBytes n) = false) :
    printWith p n s = .next (raise .outputEncodingFault .nothing (s.popped p.printWritesScratch n.toNat)) :=
  (printWith_eq p n s).trans ((if_pos h).trans (if_neg (Bool.eq_false_iff.mp ht)))

theorem printWith_past (h : s.stack.length < n.toNat) :
    printWith p n s = .next (raise .emptyStackError .nothing (s.popped p.printWritesScratch s.stack.length)) :=
  (printWith_eq p n s).trans (if_neg (Nat.not_le_of_lt h))

end

/-! ### The statements about Print and Input -/

/-- Print is `printWith` under this hardware's parameters. -/
theorem exec_print_eq_printWith (n : Word) (s : State) : exec (.print n) s = printWith params n s := rfl

/-- Settles O25: the pops write the stack and `x[0]`, `outWrite` the output, and `advance` the program counter. -/
theorem printAppendsTheLowBytes : Obligations.PrintAppendsTheLowBytes :=
  fun n s h ht => (exec_print_eq_printWith n s).trans (printWith_text h ht)

/-- Settles O27: the fault is taken in the state the pops leave. -/
theorem printOfIllFormedTextFaults : Obligations.PrintOfIllFormedTextFaults :=
  fun n s h ht => (exec_print_eq_printWith n s).trans (printWith_illFormed h ht)

/-- Settles O28: the fault is taken in the state the whole stack was popped from. -/
theorem printPastTheBottom : Obligations.PrintPastTheBottom := by
  intro n s h
  rw [exec_print_eq_printWith, printWith_past h, popped_depth]
  rfl

theorem lowByte_eq_ofNat (v : Word) : lowByte v = BitVec.ofNat 8 (v.toNat % 256) :=
  BitVec.eq_of_toNat_eq (by simp [lowByte])

/-- Settles O26: low bytes below 0x80 are well-formed text, so the Print writes them. -/
theorem printOfPlainBytesCompletes : Obligations.PrintOfPlainBytesCompletes := by
  intro n s hn hplain
  have htext : wellFormedText .utf8 (s.printBytes n) = true := by
    refine wellFormedText_of_plain (List.forall_mem_map.mpr fun v hv => ?_)
    simpa [lowByte] using hplain v hv
  refine ⟨_, (exec_print_eq_printWith n s).trans (printWith_text hn htext), rfl, rfl, rfl, ?_⟩
  exact congrArg (s.out ++ ·) (List.map_congr_left fun v _ => lowByte_eq_ofNat v)

/-- Settles O29: whichever of its outcomes Print has, the parameter changes only the registers the pops leave. -/
theorem printWithoutScratchKeepsTheRegisters : Obligations.PrintWithoutScratchKeepsTheRegisters := by
  intro n s t h
  obtain ⟨hn, ht, rfl⟩ | ⟨hn, ht, rfl⟩ | ⟨hn, rfl⟩ := exec_print_cases h
  · exact printWith_text hn ht
  · exact printWith_illFormed hn ht
  · exact printWith_past hn

/-- Settles O32: taking the fault writes the status and the fault record alone. -/
theorem inputAlwaysFaults : Obligations.InputAlwaysFaults :=
  exec_input

end Sys2Proof.Machine
end

section
/-! PROOFS. Control transfer: which address a step that leaves the core RUNNING goes to, and that the program alone
decides it (43_jump.md). -/

namespace Sys2Proof

/-- Where an Instruction at address `pc` sends the core if it completes and the core runs on: Jump to its operand, every
other kind to the next address (43_jump.md R102). -/
def Instr.nextPc (pc : Word) : Instr → Word
  | .jump n => n
  | _ => pc + 1

end Sys2Proof

namespace Sys2Proof.Machine

/-- Every instruction that leaves the core RUNNING goes to its `nextPc`. -/
theorem exec_pc_of_running {i : Instr} {s t : State} (h : exec i s = .next t) (ht : t.status = .running) :
    t.pc = i.nextPc s.pc := by
  cases i with
  | push n | add n | mul n | jump n => cases h; rfl
  | input n | exit n | invalid n => cases h; cases ht
  | pop n =>
    obtain ⟨-, rfl⟩ | ⟨-, rfl⟩ := exec_pop_cases h
    · rfl
    · cases ht
  | print n =>
    obtain ⟨-, -, rfl⟩ | ⟨-, -, rfl⟩ | ⟨-, rfl⟩ := exec_print_cases h
    · rfl
    · cases ht
    · cases ht
  | move n =>
    obtain ⟨id, rfl⟩ | ⟨src, dst, -, -, rfl⟩ := exec_move_cases h
    · cases ht
    · rfl

/-- The address after this one as the program gives it, and none where no instruction stands. -/
def State.nextPc (s : State) : Option Word :=
  s.fetched.map (Instr.nextPc s.pc)

/-- The next address reads the program and the program counter, and no register, stack or output. -/
theorem nextPc_congr {s₁ s₂ : State} (hprogram : s₁.program = s₂.program) (hpc : s₁.pc = s₂.pc) :
    s₁.nextPc = s₂.nextPc := by
  simp only [State.nextPc, State.fetched, State.progRead, hprogram, hpc]

/-- A step that leaves the core RUNNING goes to the address the program gives. -/
theorem step_pc_of_running {s t : State} (h : step s = .next t) (ht : t.status = .running) :
    s.nextPc = some t.pc := by
  obtain ⟨-, ⟨-, rfl⟩ | ⟨d, hd, he⟩⟩ := step_cases h
  · cases ht
  · simp [State.nextPc, State.fetched, hd, exec_pc_of_running he ht]

/-- A run that ends RUNNING was RUNNING when it began: no step leads back from another status. -/
theorem running_of_run_running {k : Nat} {s t : State} (h : Host.Core.run core k s = .next t)
    (ht : t.status = .running) : s.status = .running := by
  cases k with
  | zero => cases h; exact ht
  | succ k =>
    obtain ⟨u, hs, -⟩ := run_succ_next h
    exact (step_cases hs).1

/-- Settles O11, by induction on the number of steps: the two runs keep one program and one program counter, which give
both the same next address. -/
theorem dataNeverSteersTheProgramCounter : Obligations.DataNeverSteersTheProgramCounter := by
  intro k s₁ s₂ t₁ t₂ hprogram hpc _ _ h₁ h₂ ht₁ ht₂
  induction k generalizing s₁ s₂ with
  | zero =>
    cases h₁
    cases h₂
    exact hpc
  | succ k ih =>
    obtain ⟨u₁, hs₁, hr₁⟩ := run_succ_next h₁
    obtain ⟨u₂, hs₂, hr₂⟩ := run_succ_next h₂
    have hu₁ := running_of_run_running hr₁ ht₁
    have hu₂ := running_of_run_running hr₂ ht₂
    have hprogram' : u₁.program = u₂.program :=
      (step_program hs₁).trans (hprogram.trans (step_program hs₂).symm)
    have hpc' : u₁.pc = u₂.pc := Option.some.inj <|
      calc
        some u₁.pc = s₁.nextPc := (step_pc_of_running hs₁ hu₁).symm
        _ = s₂.nextPc := nextPc_congr hprogram hpc
        _ = some u₂.pc := step_pc_of_running hs₂ hu₂
    exact ih u₁ u₂ hprogram' hpc' hu₁ hu₂ hr₁ hr₂

/-- Settles O33: Jump is `setPc`, and the step after it fetches at its target or takes the fetch fault there. -/
theorem jumpMakesTheTargetTheNextFetch : Obligations.JumpMakesTheTargetTheNextFetch :=
  fun T s hr => ⟨exec_jump T s, fun _ hd => step_fetched (s := s.setPc T) hr hd,
    fun hT => step_outside (s := s.setPc T) hr (List.getElem?_eq_none hT)⟩

end Sys2Proof.Machine
end

section
/-! PROOFS. Move: which ids its operand holds, and the copy or the fault they lead to (44_move.md). -/

namespace Sys2Proof.Machine

/-! ### Register ids -/

theorem RegId.toByte_toNat_lt (r : RegId) : r.toByte.toNat < 6 := by
  cases r <;> decide

theorem RegId.toByte_injective : Function.Injective RegId.toByte := by
  intro r r' h
  exact Option.some.inj (((ofByte_eq_some_iff _ r).mpr rfl).symm.trans ((ofByte_eq_some_iff _ r').mpr h))

theorem Regs.read_write (x : Regs) (i j : RegId) (v : Word) :
    (x.write i v).read j = if j = i then v else x.read j := by
  split
  next h => rw [h, Regs.read_write_same]
  next h => exact Regs.read_write_other x v h

/-! ### The ids in the operand -/

theorem moveSrc_eq_ofNat (n : Word) : moveSrc n = BitVec.ofNat 8 (n.toNat / 256 % 256) :=
  BitVec.eq_of_toNat_eq (by simp [moveSrc_toNat])

theorem moveDst_eq_ofNat (n : Word) : moveDst n = BitVec.ofNat 8 (n.toNat % 256) :=
  BitVec.eq_of_toNat_eq (by simp [moveDst_toNat])

/-- The low 16 bits alone give both ids, the high bits being ignored (44_move.md R107; spec: D9). -/
theorem move_ids_of_low16 {src dst : Nat} {n : Word} (hdst : dst < 256)
    (h : n.toNat % 65536 = 256 * src + dst) : (moveSrc n).toNat = src ∧ (moveDst n).toNat = dst := by
  rw [moveSrc_toNat, moveDst_toNat]
  omega

/-- The operand built from two ids has them as its low 16 bits. -/
theorem toNat_ofNat_ids {src dst : Nat} (hsrc : src < 256) (hdst : dst < 256) :
    (BitVec.ofNat 64 (256 * src + dst)).toNat % 65536 = 256 * src + dst := by
  rw [BitVec.toNat_ofNat]
  omega

/-! ### One equation per outcome -/

section
variable {n : Word} {s : State}

theorem exec_move_copy {src dst : RegId} (hsrc : moveSrc n = src.toByte) (hdst : moveDst n = dst.toByte) :
    exec (.move n) s = .next (s.writeReg dst (s.readReg src)).advance := by
  obtain ⟨hbad, -⟩ | ⟨-, -, hbad, -⟩ | ⟨src', dst', hsrc', hdst', e⟩ := execMove_cases n s
  · exact absurd (hsrc ▸ hbad) (Nat.not_le_of_lt src.toByte_toNat_lt)
  · exact absurd (hdst ▸ hbad) (Nat.not_le_of_lt dst.toByte_toNat_lt)
  · rw [RegId.toByte_injective (hsrc.symm.trans hsrc'), RegId.toByte_injective (hdst.symm.trans hdst')]
    exact e

theorem exec_move_invalid_src (hbad : 6 ≤ (moveSrc n).toNat) :
    exec (.move n) s = .next (raise .invalidRegisterError (.register (moveSrc n)) s) := by
  obtain ⟨-, e⟩ | ⟨src, hsrc, -, -⟩ | ⟨src, -, hsrc, -, -⟩ := execMove_cases n s
  · exact e
  all_goals exact absurd (hsrc ▸ hbad) (Nat.not_le_of_lt src.toByte_toNat_lt)

theorem exec_move_invalid_dst (hok : (moveSrc n).toNat ≤ 5) (hbad : 6 ≤ (moveDst n).toNat) :
    exec (.move n) s = .next (raise .invalidRegisterError (.register (moveDst n)) s) := by
  obtain ⟨hsrc, -⟩ | ⟨-, -, -, e⟩ | ⟨-, dst, -, hdst, -⟩ := execMove_cases n s
  · exact absurd hok (Nat.not_le_of_lt hsrc)
  · exact e
  · exact absurd (hdst ▸ hbad) (Nat.not_le_of_lt dst.toByte_toNat_lt)

/-- One invalid id is enough for the fault; which one it reports is left open here. -/
theorem exec_move_faults (hbad : 6 ≤ (moveSrc n).toNat ∨ 6 ≤ (moveDst n).toNat) :
    ∃ id, exec (.move n) s = .next (raise .invalidRegisterError (.register id) s) := by
  by_cases hsrc : 6 ≤ (moveSrc n).toNat
  · exact ⟨_, exec_move_invalid_src hsrc⟩
  · exact ⟨_, exec_move_invalid_dst (Nat.le_of_lt_succ (Nat.lt_of_not_le hsrc)) (hbad.resolve_left hsrc)⟩

end

/-! ### The statements about Move -/

/-- Settles O34: the low 16 bits name the two registers, and the copy is one register write and `advance`. -/
theorem moveCopiesARegister : Obligations.MoveCopiesARegister := by
  intro src dst n s h
  obtain ⟨hsrc, hdst⟩ := move_ids_of_low16 dst.toByte.isLt h
  refine ⟨_, exec_move_copy (BitVec.eq_of_toNat_eq hsrc) (BitVec.eq_of_toNat_eq hdst), fun r => ?_, rfl⟩
  exact Regs.read_write s.regs dst r (s.readReg src)

/-- Settles O35: the copy of O34 read back at `dst`, and the status of the fault has no step. -/
theorem moveThenReadReturnsTheSource : Obligations.MoveThenReadReturnsTheSource := by
  refine ⟨fun src dst s => ?_, fun src dst s hsrc hdst hbad => ?_⟩
  · obtain ⟨t, he, hread, -⟩ :=
      moveCopiesARegister src dst _ s (toNat_ofNat_ids src.toByte.isLt dst.toByte.isLt)
    exact ⟨t, he, (hread dst).trans (if_pos rfl)⟩
  · obtain ⟨hs, hd⟩ := move_ids_of_low16 hdst (toNat_ofNat_ids hsrc hdst)
    obtain ⟨id, he⟩ := exec_move_faults (s := s) (hbad.imp (hs.symm ▸ ·) (hd.symm ▸ ·))
    exact ⟨_, he, rfl, rfl, (onlyResetLeavesATerminalStatus _ (.inr (.inl rfl))).1⟩

/-- Settles O36: a fault on the source id whatever the destination id, else one on the destination id; both are taken in
the state the Move found. -/
theorem moveWithAnInvalidIdFaults : Obligations.MoveWithAnInvalidIdFaults := by
  intro n s
  rw [← moveSrc_eq_ofNat, ← moveDst_eq_ofNat, ← moveSrc_toNat, ← moveDst_toNat]
  exact ⟨exec_move_invalid_src, exec_move_invalid_dst⟩

end Sys2Proof.Machine
end

section
/-! PROOFS. Exit and Invalid: how they end a run, and that nothing but an Exit ends one in success
(45_exit_invalid.md). -/

namespace Sys2Proof.Machine

/-- Settles O37: `haltOk` writes the status alone. -/
theorem exitEndsTheRunWell : Obligations.ExitEndsTheRunWell :=
  exec_exit

/-- Settles O40: taking the fault writes the status and the fault record alone. -/
theorem invalidAlwaysFaults : Obligations.InvalidAlwaysFaults :=
  exec_invalid

/-- Of the kinds executed in a RUNNING core, Exit alone answers EXITED: the others complete with the status as it was,
or take a fault. -/
theorem exec_exited {i : Instr} {s t : State} (hr : s.status = .running) (h : exec i s = .next t)
    (ht : t.status = .exited) : ∃ n, i = .exit n ∧ t = haltOk s := by
  have hne : s.status ≠ .exited := by simp [hr]
  cases i with
  | exit n => exact ⟨n, rfl, (Host.Outcome.next.inj h).symm⟩
  | push n | add n | mul n | jump n =>
    cases h
    exact absurd ht hne
  | input n | invalid n =>
    cases h
    cases ht
  | pop n =>
    obtain ⟨-, rfl⟩ | ⟨-, rfl⟩ := exec_pop_cases h
    · exact absurd ht hne
    · cases ht
  | print n =>
    obtain ⟨-, -, rfl⟩ | ⟨-, -, rfl⟩ | ⟨-, rfl⟩ := exec_print_cases h
    · exact absurd ht hne
    · cases ht
    · cases ht
  | move n =>
    obtain ⟨id, rfl⟩ | ⟨src, dst, -, -, rfl⟩ := exec_move_cases h
    · cases ht
    · exact absurd ht hne

/-- Settles O38: a fetch outside the program faults, and of the fetched instructions Exit alone answers EXITED. -/
theorem onlyExitEndsARunWell : Obligations.OnlyExitEndsARunWell := by
  intro s t hr h ht
  obtain ⟨-, ⟨-, rfl⟩ | ⟨d, hd, he⟩⟩ := step_cases h
  · cases ht
  · obtain ⟨n, hn, rfl⟩ := exec_exited hr he ht
    exact ⟨d, n, hd, hn, rfl⟩

/-- The ten-repetition opcode field and an empty operand field are the encoder's text of an Exit alone. -/
theorem encodeText_exit_zero :
    encodeText params [.exit 0] = List.replicate 10 (Char.ofNat 0x1F415) ++ [Char.ofNat 0x1F431] := by
  decide

/-- A RUNNING core whose `pc` stands at an encoded Exit halts with success. -/
theorem step_of_progRead_exit {s : State} {n : Word} (hr : s.status = .running)
    (hd : s.progRead s.pc = some (encode (.exit n))) : step s = .next (haltOk s) := by
  rw [step_fetched hr hd, decode_encode, exec_exit]

/-- Settles O39: the text is the encoding of `[exit 0]`, so it loads as that program, whose Exit the first step
fetches. -/
theorem exitAloneExitsWithSuccess : Obligations.ExitAloneExitsWithSuccess := by
  have hload := encodedTextLoadsBack [.exit 0] State.reset (by decide) (by decide) (.inl rfl)
  rw [encodeText_exit_zero] at hload
  exact ⟨_, _, _, hload, rfl, step_of_progRead_exit rfl rfl, rfl, rfl⟩

end Sys2Proof.Machine
end

section
/-! PROOFS. The fetch-execute loop: the run command, the bounds check at fetch, and the outcomes and the program counter
of a step of a RUNNING core (50_fetch_execute.md). -/

namespace Sys2Proof.Machine

/-! ### Starting, and fetching -/

/-- The run command in a status that takes it. -/
theorem hostRun_of_commandable {s : State} (h : s.status = .idle ∨ s.status = .loaded) :
    hostRun s = .next { s with status := .running } :=
  if_pos ((hostMayCommand_iff s).mpr h)

/-- The run command in a status that does not take it. -/
theorem hostRun_of_not_commandable {s : State} (h : ¬ (s.status = .idle ∨ s.status = .loaded)) :
    hostRun s = .refused .illegalHostMove :=
  if_neg ((hostMayCommand_iff s).not.mpr h)

/-- A RUNNING core whose `pc` is at or above N takes the fetch fault. -/
theorem step_of_length_le_pc {s : State} (hr : s.status = .running) (h : s.program.length ≤ s.pc.toNat) :
    step s = .next (raise .invalidPcError (.address s.pc) s) :=
  step_outside hr (List.getElem?_eq_none h)

/-- Settles O2: the guard of `run` is the two statuses, and address 0 lies outside an empty store. -/
theorem runCommandOnlySetsStatus : Obligations.RunCommandOnlySetsStatus := by
  refine ⟨fun s h => hostRun_of_commandable h,
    fun s hidle hloaded => hostRun_of_not_commandable (not_or.mpr ⟨hidle, hloaded⟩),
    fun s _ hpc hempty => ?_⟩
  have hout : s.program.length ≤ s.pc.toNat := by simp [hempty]
  rw [← hpc]
  exact step_of_length_le_pc (s := { s with status := .running }) rfl hout

/-- Settles O7: a RUNNING core inside the program makes a loop pass with the word it fetches. -/
theorem stepRunsTheDecodedInstruction : Obligations.StepRunsTheDecodedInstruction := by
  rintro s d i hr hd rfl
  exact step_fetched hr hd

/-- Settles O8: in each situation the address fetched is at or above N, by `step_of_length_le_pc` the one fault. -/
theorem fetchOutsideTheProgramFaults : Obligations.FetchOutsideTheProgramFaults := by
  refine ⟨fun s hr h => step_of_length_le_pc hr h, fun s hr hempty => ?_, fun s t N hr hN hlt hpc hstep ht htpc => ?_,
    fun s n hr h => ⟨_, exec_jump n s, hr, step_of_length_le_pc (s := s.setPc n) hr h⟩⟩
  · exact ⟨_, step_of_length_le_pc hr (by simp [hempty]), rfl, rfl, rfl⟩
  · have htN : t.pc = BitVec.ofNat 64 N := by
      rw [htpc, ← hpc]
      bv_omega
    have hout : t.program.length ≤ t.pc.toNat := by
      rw [step_program hstep, hN, htN, BitVec.toNat_ofNat, Nat.mod_eq_of_lt hlt]
    rw [← htN]
    exact step_of_length_le_pc ht hout

/-! ### The outcomes of an instruction -/

/-- Every instruction answers a next state, its faults among them (50_fetch_execute.md R128). -/
theorem exec_total (i : Instr) (s : State) : ∃ t, exec i s = .next t := by
  cases i with
  | push n | add n | mul n | input n | jump n | exit n | invalid n => exact ⟨_, rfl⟩
  | pop n =>
    obtain h | h := Nat.lt_or_ge s.stack.length n.toNat
    · exact ⟨_, exec_pop_past h⟩
    · exact ⟨_, exec_pop_within h⟩
  | print n =>
    obtain h | h := Nat.lt_or_ge s.stack.length n.toNat
    · exact ⟨_, printWith_past h⟩
    · cases htext : wellFormedText .utf8 (s.printBytes n) with
      | true => exact ⟨_, printWith_text h htext⟩
      | false => exact ⟨_, printWith_illFormed h htext⟩
  | move n =>
    obtain ⟨-, e⟩ | ⟨_, -, -, e⟩ | ⟨_, _, -, -, e⟩ := execMove_cases n s <;> exact ⟨_, e⟩

/-- The core has stopped at run time: with success, or with a fault it names (50_fetch_execute.md R128). -/
def State.stopped (s : State) : Prop :=
  s.status = .exited ∨ (s.status = .faulted ∧ s.faultKind ≠ .noFault)

theorem stopped_raise {k : FaultKind} (hk : k.faultClass = .runTime) (f : FaultInfo) (s : State) :
    (raise k f s).stopped := by
  refine .inr ⟨by rw [raise_status, hk]; rfl, ?_⟩
  rintro (rfl : k = .noFault)
  cases hk

/-- An instruction that ends a run, Exit or a fault, leaves `pc` at itself (spec: D25 for Exit). -/
theorem exec_stops {i : Instr} {s t : State} (hr : s.status = .running) (h : exec i s = .next t)
    (ht : t.status ≠ .running) : t.pc = s.pc ∧ t.stopped := by
  cases i with
  | push n | add n | mul n | jump n =>
    cases h
    exact absurd hr ht
  | input n | invalid n =>
    cases h
    exact ⟨rfl, stopped_raise rfl _ _⟩
  | exit n =>
    cases h
    exact ⟨rfl, .inl rfl⟩
  | pop n =>
    obtain ⟨-, rfl⟩ | ⟨-, rfl⟩ := exec_pop_cases h
    · exact absurd hr ht
    · exact ⟨rfl, stopped_raise rfl _ _⟩
  | print n =>
    obtain ⟨-, -, rfl⟩ | ⟨-, -, rfl⟩ | ⟨-, rfl⟩ := exec_print_cases h
    · exact absurd hr ht
    · exact ⟨rfl, stopped_raise rfl _ _⟩
    · exact ⟨rfl, stopped_raise rfl _ _⟩
  | move n =>
    obtain ⟨id, rfl⟩ | ⟨src, dst, -, -, rfl⟩ := exec_move_cases h
    · exact ⟨rfl, stopped_raise rfl _ _⟩
    · exact absurd hr ht

theorem step_total {s : State} (hr : s.status = .running) : ∃ t, step s = .next t := by
  cases hd : s.progRead s.pc with
  | none => exact ⟨_, step_outside hr hd⟩
  | some d => exact step_fetched hr hd ▸ exec_total (decode d) s

theorem step_stops {s t : State} (h : step s = .next t) (ht : t.status ≠ .running) : t.stopped := by
  obtain ⟨hr, ⟨-, rfl⟩ | ⟨d, -, he⟩⟩ := step_cases h
  · exact stopped_raise rfl _ _
  · exact (exec_stops hr he ht).2

/-- Settles O9: a step answers a next state, and one that leaves RUNNING leaves a stopped core. -/
theorem runningCoreAlwaysSteps : Obligations.RunningCoreAlwaysSteps := by
  intro s hr
  obtain ⟨t, h⟩ := step_total hr
  exact ⟨t, h, or_iff_not_imp_left.mpr (step_stops h)⟩

/-! ### The program counter -/

theorem nextPc_of_ne_jump {i : Instr} (h : ∀ n, i ≠ .jump n) (pc : Word) : i.nextPc pc = pc + 1 := by
  cases i with
  | jump n => exact absurd rfl (h n)
  | push n | pop n | add n | mul n | print n | input n | move n | exit n | invalid n => rfl

/-- Settles O10: an instruction that leaves the core RUNNING goes to its `nextPc`, and any other stays where it is. -/
theorem programCounterAfterEachKind : Obligations.ProgramCounterAfterEachKind := by
  refine fun i s t hr h => ⟨?_, fun hi ht => ?_, fun ht => (exec_stops hr h ht).1⟩
  · rintro n rfl
    cases h
    exact ⟨hr, rfl⟩
  · rw [exec_pc_of_running h ht, nextPc_of_ne_jump hi]

/-! ### Endless loops -/

/-- A run whose first step answers a next state goes on from there. -/
theorem run_succ_of_step {s u : State} (h : step s = .next u) (k : Nat) :
    Host.Core.run core (k + 1) s = Host.Core.run core k u := by
  simp only [Host.Core.run, show core.step s = .next u from h]

/-- A state its own step answers is where a run of any length from it ends. -/
theorem run_of_step_self {s : State} (h : step s = .next s) (k : Nat) : Host.Core.run core k s = .next s := by
  induction k with
  | zero => rfl
  | succ k ih => rw [run_succ_of_step h, ih]

/-- Settles O13: a Jump to its own address sets `pc` to the value it holds, so its step answers the same state. -/
theorem jumpToItselfRunsForever : Obligations.JumpToItselfRunsForever := by
  intro s d hr hd hjump
  have hself : step s = .next s := by
    rw [step_fetched hr hd, hjump, exec_jump]
    rfl
  exact run_of_step_self hself

end Sys2Proof.Machine
end

section
/-! PROOFS. Faults: when EmptyStackError is raised, what a fault carries, what it leaves unchanged, and that the record
of a FAULTED core in use is true (60_exceptions.md). -/

namespace Sys2Proof.Machine

/-! ### EmptyStackError -/

section
variable {i : Instr} {n : Word} {s t : State} (hi : i = .pop n ∨ i = .print n)
include hi

/-- Pop and Print past the bottom answer alike: they empty the stack and fault. -/
theorem exec_pop_or_print_past (h : s.stack.length < n.toNat) :
    exec i s = .next (raise .emptyStackError .nothing (s.popped true s.stack.length)) := by
  obtain rfl | rfl := hi
  · exact exec_pop_past h
  · exact printWith_past h

/-- Within the depth Pop and Print complete, or fault on the text; neither records EmptyStackError. -/
theorem exec_pop_or_print_within (h : n.toNat ≤ s.stack.length) (hk : s.faultKind ≠ .emptyStackError)
    (ht : exec i s = .next t) : t.faultKind ≠ .emptyStackError := by
  obtain rfl | rfl := hi
  · obtain ⟨-, rfl⟩ | ⟨hlt, -⟩ := exec_pop_cases ht
    · exact hk
    · exact absurd h (Nat.not_le_of_lt hlt)
  · obtain ⟨-, -, rfl⟩ | ⟨-, -, rfl⟩ | ⟨hlt, -⟩ := exec_print_cases ht
    · exact hk
    · simp
    · exact absurd h (Nat.not_le_of_lt hlt)

end

/-- Settles O24: past the bottom the fault follows the pops, and a count of 0 is within any depth. -/
theorem emptyStackErrorExactlyPastTheDepth : Obligations.EmptyStackErrorExactlyPastTheDepth := by
  intro i n s hi
  obtain ⟨t, ht⟩ := exec_total i s
  refine ⟨fun h => ⟨_, exec_pop_or_print_past hi h, rfl, rfl, rfl, by simp⟩,
    fun h hk => ⟨t, ht, exec_pop_or_print_within hi h hk ht⟩, ?_⟩
  rintro rfl hk
  exact ⟨t, ht, exec_pop_or_print_within hi (Nat.zero_le _) hk ht⟩

/-! ### What a fault carries -/

/-- A Move that faults reports one of its two ids, an invalid one. -/
theorem exec_move_faulted {n : Word} {s t : State} (hr : s.status = .running) (h : exec (.move n) s = .next t)
    (ht : t.status = .faulted) :
    ∃ id, t = raise .invalidRegisterError (.register id) s ∧ 6 ≤ id.toNat ∧ (id = moveSrc n ∨ id = moveDst n) := by
  obtain ⟨hbad, e⟩ | ⟨-, -, hbad, e⟩ | ⟨_, _, -, -, e⟩ := execMove_cases n s <;>
    obtain rfl := Host.Outcome.next.inj (e.symm.trans h)
  · exact ⟨_, rfl, hbad, .inl rfl⟩
  · exact ⟨_, rfl, hbad, .inr rfl⟩
  · cases hr.symm.trans ht

/-- Settles O41: Invalid by its equation, Move by `exec_move_faulted`, and the fetch fault at `pc`, at N and at the
target of a Jump. -/
theorem faultsCarryTheirValue : Obligations.FaultsCarryTheirValue := by
  refine ⟨fun n s => ⟨_, exec_invalid n s, rfl, rfl⟩, fun n s t hr h ht => ?_,
    fun s hr h => ⟨_, step_of_length_le_pc hr h, rfl, rfl⟩, fun s hr hpc => ?_,
    fun n s hr h => ⟨_, _, exec_jump n s, step_of_length_le_pc (s := s.setPc n) hr h, rfl, rfl⟩⟩
  · obtain ⟨id, rfl, hbad, hid⟩ := exec_move_faulted hr h ht
    rw [← moveSrc_toNat, ← moveDst_toNat]
    exact ⟨id, rfl, rfl, hbad, hid.imp (congrArg _) (congrArg _)⟩
  · refine ⟨_, step_of_length_le_pc hr hpc.ge, rfl, ?_⟩
    rw [raise_faultInfo, ← hpc, BitVec.ofNat_toNat, BitVec.setWidth_eq]

/-! ### What a faulting instruction leaves unchanged -/

/-- Everything a faulting instruction can do: take its fault in the state its pops leave, and only Pop and Print pop. -/
theorem exec_faulted_cases {i : Instr} {s t : State} (hr : s.status = .running) (h : exec i s = .next t)
    (ht : t.status = .faulted) :
    ∃ k f pops, t = raise k f (s.popped true pops) ∧ ((∀ n, i ≠ .pop n ∧ i ≠ .print n) → pops = 0) := by
  have hne : s.status ≠ .faulted := by simp [hr]
  cases i with
  | push n | add n | mul n | jump n =>
    cases h
    exact absurd ht hne
  | exit n =>
    cases h
    cases ht
  | input n | invalid n =>
    cases h
    exact ⟨_, _, 0, rfl, fun _ => rfl⟩
  | move n =>
    obtain ⟨id, rfl, -, -⟩ := exec_move_faulted hr h ht
    exact ⟨_, _, 0, rfl, fun _ => rfl⟩
  | pop n =>
    obtain ⟨-, rfl⟩ | ⟨-, rfl⟩ := exec_pop_cases h
    · exact absurd ht hne
    · exact ⟨_, _, _, rfl, fun hi => absurd rfl (hi n).1⟩
  | print n =>
    obtain ⟨-, -, rfl⟩ | ⟨-, -, rfl⟩ | ⟨-, rfl⟩ := exec_print_cases h
    · exact absurd ht hne
    · exact ⟨_, _, _, rfl, fun hi => absurd rfl (hi n).2⟩
    · exact ⟨_, _, _, rfl, fun hi => absurd rfl (hi n).2⟩

/-- Settles O42: the fault writes the record alone, and the pops before it only `x[0]` and the top of the stack. -/
theorem faultingInstructionFrame : Obligations.FaultingInstructionFrame := by
  intro i s t hr h ht
  obtain ⟨k, f, pops, rfl, hpops⟩ := exec_faulted_cases hr h ht
  refine ⟨rfl, rfl, rfl, fun hi => ?_, fun r hne => read_scratchAfter true _ _ hne,
    s.stack.take pops, (List.take_append_drop _ _).symm⟩
  rw [hpops hi]
  exact ⟨rfl, rfl⟩

/-! ### No register value causes a fault -/

/-- Settles O44: which outcome an instruction has depends on its operand and the stack, and no outcome takes the status,
the fault record or `pc` from a register. -/
theorem registerValuesNeverCauseAFault : Obligations.RegisterValuesNeverCauseAFault := by
  intro i s r
  cases i with
  | push n | add n | mul n | input n | jump n | exit n | invalid n => exact ⟨_, _, rfl, rfl, rfl, rfl, rfl, rfl⟩
  | pop n =>
    obtain h | h := Nat.lt_or_ge s.stack.length n.toNat
    · exact ⟨_, _, exec_pop_past h, exec_pop_past h, rfl, rfl, rfl, rfl⟩
    · exact ⟨_, _, exec_pop_within h, exec_pop_within h, rfl, rfl, rfl, rfl⟩
  | print n =>
    obtain h | h := Nat.lt_or_ge s.stack.length n.toNat
    · exact ⟨_, _, printWith_past h, printWith_past h, rfl, rfl, rfl, rfl⟩
    · cases htext : wellFormedText .utf8 (s.printBytes n) with
      | true => exact ⟨_, _, printWith_text h htext, printWith_text h htext, rfl, rfl, rfl, rfl⟩
      | false => exact ⟨_, _, printWith_illFormed h htext, printWith_illFormed h htext, rfl, rfl, rfl, rfl⟩
  | move n =>
    obtain ⟨hbad, -⟩ | ⟨src, hsrc, hbad, -⟩ | ⟨src, dst, hsrc, hdst, -⟩ := execMove_cases n s
    · exact ⟨_, _, exec_move_invalid_src hbad, exec_move_invalid_src hbad, rfl, rfl, rfl, rfl⟩
    · have hok : (moveSrc n).toNat ≤ 5 := hsrc ▸ Nat.le_of_lt_succ src.toByte_toNat_lt
      exact ⟨_, _, exec_move_invalid_dst hok hbad, exec_move_invalid_dst hok hbad, rfl, rfl, rfl, rfl⟩
    · exact ⟨_, _, exec_move_copy hsrc hdst, exec_move_copy hsrc hdst, rfl, rfl, rfl, rfl⟩

/-! ### The fault record of a core in use -/

/-- The invariant holds of every state of the machine in use. -/
theorem Reachable.inv {s : State} (h : Reachable s) : Inv s := by
  induction h with
  | reset => exact invariantHoldsAtReset
  | step _ hs ih => exact stepKeepsTheInvariant _ _ ih hs
  | host m _ hm ih => exact hostMovesKeepTheInvariant m _ _ ih hm

/-- The record of a FAULTED core in use is explained by the state it stands in. -/
theorem Reachable.recordExplained {s : State} (h : Reachable s) (hst : s.status = .faulted) :
    faultRecordExplained s := by
  simpa only [statusExplained, hst] using h.inv.statusFits

/-- The six run-time faults of this hardware (60_exceptions.md R141): the kinds a record can be explained for. -/
theorem faultKind_of_explained {s : State} (h : faultRecordExplained s) :
    s.faultKind = .invalidPcError ∨ s.faultKind = .invalidInstruction ∨ s.faultKind = .emptyStackError ∨
      s.faultKind = .invalidRegisterError ∨ s.faultKind = .inputNotSupported ∨
      s.faultKind = .outputEncodingFault := by
  cases hk : s.faultKind with
  | invalidPcError | invalidInstruction | emptyStackError | invalidRegisterError | inputNotSupported
  | outputEncodingFault => decide
  | noFault | invalidImm | invalidOpc | invalidLine | stackOverflowFault | arithmeticOverflowFault =>
    simp only [faultRecordExplained, hk] at h

/-- What `fetched` says of the store. -/
theorem fetched_eq_some_iff {s : State} {i : Instr} :
    s.fetched = some i ↔ ∃ d, s.program[s.pc.toNat]? = some d ∧ decode d = i :=
  Option.map_eq_some_iff

/-- Settles O58: the record is explained, and the explanation is read off kind by kind. -/
theorem faultRecordTellsTheTruth : Obligations.FaultRecordTellsTheTruth := by
  intro s hs hst
  have hrec := hs.recordExplained hst
  refine ⟨faultKind_of_explained hrec, fun hk => ?_, fun hk => ?_, fun hk => ?_⟩ <;>
    simp only [faultRecordExplained, hk] at hrec
  · exact hrec
  · obtain ⟨hinfo, n, hf⟩ := hrec
    obtain ⟨d, hd, hi⟩ := fetched_eq_some_iff.mp hf
    exact ⟨hinfo, d, n, hd, hi⟩
  · obtain ⟨hinfo, hempty, -⟩ := hrec
    exact ⟨hinfo, hempty⟩

end Sys2Proof.Machine
end

section
/-! PROOFS. A run of a core in use starts from the values reset gives (70_reset_and_hazards.md R171, R174). -/

namespace Sys2Proof.Machine

/-- The registers of a core that stands as reset left it are zero. -/
theorem State.untouched.readReg_eq_zero {s : State} (h : s.untouched) (r : RegId) : s.readReg r = 0 := by
  obtain ⟨hregs, -⟩ := h
  obtain ⟨hzero, -⟩ := resetLeavesTheStatedValues
  calc s.readReg r = State.reset.readReg r := congrArg (Regs.read · r) hregs
    _ = 0 := hzero r

/-- Settles O57: an accepted run finds the core waiting for the host, so the invariant says that it stands as reset left
it, and the run writes the status alone. -/
theorem everyRunStartsFresh : Obligations.EveryRunStartsFresh := by
  intro s t hs h
  obtain ⟨hc, rfl⟩ := hostRun_cases h
  obtain ⟨hu, hkind, -⟩ := untouched_of_commandable hc hs.inv.statusFits
  have hzero := hu.readReg_eq_zero
  obtain ⟨-, hpc, hstack, hout⟩ := hu
  exact ⟨hzero, hpc, hstack, hout, hkind, rfl⟩

end Sys2Proof.Machine
end
